-- ==== Sys2Proof/Word.lean ====
section
/-! DEFINITION. The word types of TinyRV0 (spec/00_scope.md R3, R4; spec/10_state.md R10, R14). -/

namespace Sys2Proof

/-- Eight bits: the unit of memory (R20). -/
abbrev Byte := BitVec 8

/-- The only data format: a 4-byte integer (R3). -/
abbrev Word := BitVec 32

/-- A general-register specifier, `x0` to `x31` (R10, R60). -/
abbrev Reg := Fin 32

/-- A control/status register number: 12 bits, unsigned (R14, R61). -/
abbrev CsrNumber := BitVec 12

/-- Which of the 32 accelerator registers: `k` names CSR `0x7E0 + k` (R17, R113). -/
abbrev XcelReg := Fin 32

end Sys2Proof
end

