-- ==== Sys2Proof/Syntax.lean ====
section
/-! DEFINITION. The ten instructions of TinyRV0 (spec/00_scope.md R2) with their operands
(spec/30_encoding.md R57, R62), and the names of its 34 control/status registers (spec/10_state.md R14). -/

namespace Sys2Proof

/-- One constructor per row of spec/opcode_table.json. Operands stand in the order of the assembler
syntax of R62; `sw` and `csrw` therefore name their data register as the assembler does. -/
inductive Instr where
  /-- `csrr rd, csr` (R70). -/
  | csrr (rd : Reg) (csr : CsrNumber)
  /-- `csrw csr, rs1` (R71). -/
  | csrw (csr : CsrNumber) (rs1 : Reg)
  /-- `add rd, rs1, rs2` (R80). -/
  | add (rd rs1 rs2 : Reg)
  /-- `and rd, rs1, rs2` (R81). -/
  | and (rd rs1 rs2 : Reg)
  /-- `sll rd, rs1, rs2` (R82). -/
  | sll (rd rs1 rs2 : Reg)
  /-- `srl rd, rs1, rs2` (R83). -/
  | srl (rd rs1 rs2 : Reg)
  /-- `addi rd, rs1, imm`; `imm` is the I-immediate's 12 bits (R84, R54). -/
  | addi (rd rs1 : Reg) (imm : BitVec 12)
  /-- `lw rd, imm(rs1)`; `imm` is the I-immediate's 12 bits (R90, R54). -/
  | lw (rd rs1 : Reg) (imm : BitVec 12)
  /-- `sw rs2, imm(rs1)`; `imm` is the S-immediate's 12 bits (R91, R55). -/
  | sw (rs2 rs1 : Reg) (imm : BitVec 12)
  /-- `bne rs1, rs2, imm`; `imm` is the B-immediate's 13 bits, bit 0 of which no encoding carries
  (R95, R56). -/
  | bne (rs1 rs2 : Reg) (imm : BitVec 13)
  deriving DecidableEq, Repr

/-- The rows of the opcode map, by name (R57). -/
inductive Op where
  | csrr | csrw | add | and | sll | srl | addi | lw | sw | bne
  deriving DecidableEq, Repr

/-- The row an instruction belongs to. -/
def Instr.op : Instr → Op
  | .csrr .. => .csrr
  | .csrw .. => .csrw
  | .add .. => .add
  | .and .. => .and
  | .sll .. => .sll
  | .srl .. => .srl
  | .addi .. => .addi
  | .lw .. => .lw
  | .sw .. => .sw
  | .bne .. => .bne

/-- The control/status registers TinyRV0 has, 34 in all (R14). -/
inductive Csr where
  /-- `proc2mngr`, 0x7C0 (R16). -/
  | proc2mngr
  /-- `mngr2proc`, 0xFC0 (R15). -/
  | mngr2proc
  /-- `xcelregXX`, 0x7E0 + k (R17). -/
  | xcelreg (k : XcelReg)
  deriving DecidableEq, Repr

/-- Whether a CSR access reads or writes: the direction an `UndefinedCSRAccess` reports (R100). -/
inductive CsrDirection where
  | read | write
  deriving DecidableEq, Repr

end Sys2Proof
end

