-- ==== Sys2Proof/WellFormed.lean ====
section
/-! DEFINITION. Which terms of `Instr` an instruction word can stand for. Operand widths are already in
the types (R54, R55, R60, R61, R64); the one relation left is the constant-zero bit of the B-immediate. -/

namespace Sys2Proof

/-- R56, R64: bit 0 of the B-immediate is the constant zero, so a `bne` offset is even. Every value of
every other operand is legal (R57: all operand values are legal; R60). -/
def Instr.wellFormed : Instr → Bool
  | .bne _ _ imm => imm.getLsbD 0 == false
  | .csrr .. | .csrw .. | .add .. | .and .. | .sll .. | .srl .. | .addi .. | .lw .. | .sw .. => true

end Sys2Proof
end

