-- ==== Sys2Proof/Decode.lean ====
section
/-! DEFINITION. Instruction words: byte order, fields, immediates, the opcode map, the decoder and the
encoder (spec/30_encoding.md; spec/20_memory.md R32, R36). -/

namespace Sys2Proof

/-! ## Byte order -/

/-- R32: the byte at the lowest address, `b0`, is the least significant. -/
def wordOfBytes (b0 b1 b2 b3 : Byte) : Word := b3 ++ b2 ++ b1 ++ b0

/-- R32: byte `k` of a word, `w[8k+7 : 8k]`, stands at address `a + k`. -/
def byteOf (w : Word) (k : Nat) : Byte := w.extractLsb' (8 * k) 8

/-- The four bytes of a word as memory holds them, lowest address first (R32). -/
def bytesOfWord (w : Word) : List Byte := [byteOf w 0, byteOf w 1, byteOf w 2, byteOf w 3]

/-! ## Fields (R51 to R53, R60, R61) and immediates (R54 to R56) -/

def fieldRd (w : Word) : Reg := (w.extractLsb' 7 5).toFin
def fieldRs1 (w : Word) : Reg := (w.extractLsb' 15 5).toFin
def fieldRs2 (w : Word) : Reg := (w.extractLsb' 20 5).toFin

/-- R61: `inst[31:20]`, a 12-bit unsigned CSR number. -/
def fieldCsr (w : Word) : CsrNumber := w.extractLsb' 20 12

/-- R54: the twelve bits `inst[31:20]`; `Machine.immI` extends them. -/
def fieldImmI (w : Word) : BitVec 12 := w.extractLsb' 20 12

/-- R55: `inst[31:25] ++ inst[11:7]`. -/
def fieldImmS (w : Word) : BitVec 12 := w.extractLsb' 25 7 ++ w.extractLsb' 7 5

/-- R56: `inst[31] ++ inst[7] ++ inst[30:25] ++ inst[11:8] ++ 0`. -/
def fieldImmB (w : Word) : BitVec 13 :=
  w.extractLsb' 31 1 ++ w.extractLsb' 7 1 ++ w.extractLsb' 25 6 ++ w.extractLsb' 8 4 ++ 0#1

/-! ## The opcode map (R57) -/

/-- A row of the opcode map: a word is this instruction when `word & mask = pattern`. -/
structure Row where
  op : Op
  pattern : Word
  mask : Word
  deriving DecidableEq, Repr

def Row.covers (r : Row) (w : Word) : Bool := w &&& r.mask == r.pattern

/-- R57, in the order of the spec's table. -/
def opcodeTable : List Row :=
  [ { op := .csrr, pattern := 0x00002073#32, mask := 0x000FF07F#32 },
    { op := .csrw, pattern := 0x00001073#32, mask := 0x00007FFF#32 },
    { op := .add,  pattern := 0x00000033#32, mask := 0xFE00707F#32 },
    { op := .and,  pattern := 0x00007033#32, mask := 0xFE00707F#32 },
    { op := .sll,  pattern := 0x00001033#32, mask := 0xFE00707F#32 },
    { op := .srl,  pattern := 0x00005033#32, mask := 0xFE00707F#32 },
    { op := .addi, pattern := 0x00000013#32, mask := 0x0000707F#32 },
    { op := .lw,   pattern := 0x00002003#32, mask := 0x0000707F#32 },
    { op := .sw,   pattern := 0x00002023#32, mask := 0x0000707F#32 },
    { op := .bne,  pattern := 0x00001063#32, mask := 0x0000707F#32 } ]

/-! ## Decoding -/

/-- Why bytes are no instruction. -/
inductive DecodeReject where
  /-- Fewer than the four bytes of the one instruction length (R50). -/
  | truncated
  /-- A word that matches no row of the opcode map (R58). -/
  | illegalWord (w : Word)
  deriving DecidableEq, Repr

/-- The row of the opcode map a word belongs to: the first that covers it, and there is at most one (R57). -/
def decodeOp (w : Word) : Option Op := (opcodeTable.find? (fun r => r.covers w)).map Row.op

/-- The operands of a word of a given row. -/
def operandsOf (w : Word) : Op → Instr
  | .csrr => .csrr (fieldRd w) (fieldCsr w)
  | .csrw => .csrw (fieldCsr w) (fieldRs1 w)
  | .add => .add (fieldRd w) (fieldRs1 w) (fieldRs2 w)
  | .and => .and (fieldRd w) (fieldRs1 w) (fieldRs2 w)
  | .sll => .sll (fieldRd w) (fieldRs1 w) (fieldRs2 w)
  | .srl => .srl (fieldRd w) (fieldRs1 w) (fieldRs2 w)
  | .addi => .addi (fieldRd w) (fieldRs1 w) (fieldImmI w)
  | .lw => .lw (fieldRd w) (fieldRs1 w) (fieldImmI w)
  | .sw => .sw (fieldRs2 w) (fieldRs1 w) (fieldImmS w)
  | .bne => .bne (fieldRs1 w) (fieldRs2 w) (fieldImmB w)

/-- R57, R58: every word is one of the ten instructions or illegal. -/
def decodeWord (w : Word) : Except DecodeReject Instr :=
  match decodeOp w with
  | some op => .ok (operandsOf w op)
  | none => .error (.illegalWord w)

/-- Total on any bytes: the first instruction and the bytes after it (R50: one length, no prefix). -/
def decodeBytes : List Byte → Except DecodeReject (Instr × List Byte)
  | b0 :: b1 :: b2 :: b3 :: rest =>
    match decodeWord (wordOfBytes b0 b1 b2 b3) with
    | .ok i => .ok (i, rest)
    | .error e => .error e
  | _ => .error .truncated

/-- The instruction the decoder reads from a table word of `nbits` bits: every bit from `nbits` up is
zero, and the word is laid out as memory holds it. -/
def decodeTableWord (nbits w : Nat) : Option Instr :=
  match decodeBytes (bytesOfWord (BitVec.ofNat 32 (w % 2 ^ nbits))) with
  | .ok (i, _) => some i
  | .error _ => none

/-! ## Encoding -/

def regBits (r : Reg) : BitVec 5 := BitVec.ofFin r

/-- R51. -/
def encodeR (funct7 : BitVec 7) (rs2 rs1 : Reg) (funct3 : BitVec 3) (rd : Reg) (opcode : BitVec 7) : Word :=
  funct7 ++ regBits rs2 ++ regBits rs1 ++ funct3 ++ regBits rd ++ opcode

/-- R52; `imm` is a CSR number in `CSRR` and `CSRW`. -/
def encodeI (imm : BitVec 12) (rs1 : Reg) (funct3 : BitVec 3) (rd : Reg) (opcode : BitVec 7) : Word :=
  imm ++ regBits rs1 ++ funct3 ++ regBits rd ++ opcode

/-- R53; which immediate bits stand in `hi` and `lo` is R55 for `SW` and R56 for `BNE`. -/
def encodeS (hi : BitVec 7) (rs2 rs1 : Reg) (funct3 : BitVec 3) (lo : BitVec 5) (opcode : BitVec 7) : Word :=
  hi ++ regBits rs2 ++ regBits rs1 ++ funct3 ++ lo ++ opcode

/-- R56: the upper `imm` field of a `BNE`, `imm[12] ++ imm[10:5]`. -/
def branchHi (imm : BitVec 13) : BitVec 7 := imm.extractLsb' 12 1 ++ imm.extractLsb' 5 6

/-- R56: the lower `imm` field of a `BNE`, `imm[4:1] ++ imm[11]`. -/
def branchLo (imm : BitVec 13) : BitVec 5 := imm.extractLsb' 1 4 ++ imm.extractLsb' 11 1

/-- The word of an instruction, written from the field columns of the table of R57. -/
def encode : Instr → Word
  | .csrr rd csr => encodeI csr 0 0b010#3 rd 0b1110011#7
  | .csrw csr rs1 => encodeI csr rs1 0b001#3 0 0b1110011#7
  | .add rd rs1 rs2 => encodeR 0b0000000#7 rs2 rs1 0b000#3 rd 0b0110011#7
  | .and rd rs1 rs2 => encodeR 0b0000000#7 rs2 rs1 0b111#3 rd 0b0110011#7
  | .sll rd rs1 rs2 => encodeR 0b0000000#7 rs2 rs1 0b001#3 rd 0b0110011#7
  | .srl rd rs1 rs2 => encodeR 0b0000000#7 rs2 rs1 0b101#3 rd 0b0110011#7
  | .addi rd rs1 imm => encodeI imm rs1 0b000#3 rd 0b0010011#7
  | .lw rd rs1 imm => encodeI imm rs1 0b010#3 rd 0b0000011#7
  | .sw rs2 rs1 imm => encodeS (imm.extractLsb' 5 7) rs2 rs1 0b010#3 (imm.extractLsb' 0 5) 0b0100011#7
  | .bne rs1 rs2 imm => encodeS (branchHi imm) rs2 rs1 0b001#3 (branchLo imm) 0b1100011#7

/-! ## Control/status register numbers (R14) -/

/-- The number of a CSR. -/
def csrNumber : Csr → CsrNumber
  | .proc2mngr => 0x7C0#12
  | .mngr2proc => 0xFC0#12
  | .xcelreg k => 0x7E0#12 + BitVec.ofNat 12 k.val

/-- The CSR a number names; none for a number outside the 34 (R14, R18). -/
def csrOfNumber (n : CsrNumber) : Option Csr :=
  if n = 0x7C0#12 then some .proc2mngr
  else if n = 0xFC0#12 then some .mngr2proc
  else if n.extractLsb' 5 7 = 0b0111111#7 then some (.xcelreg (n.extractLsb' 0 5).toFin)
  else none

end Sys2Proof
end

