-- ==== Sys2Proof/Config.lean ====
section
/-! DEFINITION. What the architecture fixes (spec/00_scope.md R4) and the free values it leaves open. -/

namespace Sys2Proof

/-- An access the accelerator has completed. The list of them stands for the accelerator's own state
(R22, R113): whatever that state is, it is determined by its initial value and these. Log 6. -/
inductive XcelAccess where
  | read (k : XcelReg)
  | write (k : XcelReg) (v : Word)
  deriving DecidableEq, Repr

namespace Config

/-- The number of bytes of memory, 1 MB (R20, R30). Addresses `0x00000000` to `0x000FFFFF` exist. -/
def memBytes : Nat := 0x100000

/-- `pc` after reset (R120). -/
def resetVector : Word := 0x00000200#32

/-- FREE VALUE. The byte that memory holds at `address` before any loader or `SW` has defined it: any
value, the same on every read until it is stored to (R44, D15, D30). No body: nothing can be proved
of it. Log 2. -/
opaque initMem (address : Nat) : Byte

/-- FREE VALUE. The word that a read of accelerator register `k` returns, after the accesses in
`history`, at environment move `clock`: specific to each accelerator (R17, R113, D11). Every read
lengthens the history, so each read draws a value afresh. No body. Log 6. -/
opaque xcelRead (clock : Nat) (history : List XcelAccess) (k : XcelReg) : Word

end Config

end Sys2Proof
end

