-- ==== Sys2Proof/Machine/State.lean ====
section
/-! DEFINITION. The state of a TinyRV0 machine (spec/10_state.md), its faults (spec/60_exceptions.md R100)
and its reset (spec/70_reset_and_hazards.md R120, R121). -/

namespace Sys2Proof.Machine

/-- The ways a step stops: R100, all terminal (R8). Each is SAFE: the source defines nothing in these
situations, and the model gives none of them a meaning, so no claim can be proved about what follows. -/
inductive Fault where
  /-- Every fetch: the word at `pc` is none of the ten instructions (R58, D3, D4). Safe. Log 12. -/
  | illegalInstruction (pc inst : Word)
  /-- `LW`, `SW`: the effective address is no multiple of 4 (R33, R92, D5). Safe. Log 13. -/
  | misalignedAccess (addr : Word)
  /-- `LW`, `SW`: the effective address is above `0x000FFFFF` (R31, R92, D6). Safe. Log 13. -/
  | addressOutOfRange (addr : Word)
  /-- Every fetch: `pc` is above `0x000FFFFF` (R7, R31, R36, D7). Safe. Log 11. -/
  | fetchOutOfRange (pc : Word)
  /-- Every fetch: `pc` is no multiple of 4; no run from reset reaches it (R7, R36, D2). Safe. Log 11. -/
  | misalignedFetch (pc : Word)
  /-- A taken `BNE` whose target is no multiple of 4 (R95, D8). Safe. Log 14. -/
  | misalignedBranchTarget (pc target : Word)
  /-- `CSRR`, `CSRW`: a number that names none of the 34 CSRs (R18, R72, R73, D9). Safe. Log 15. -/
  | unsupportedCSR (n : CsrNumber)
  /-- `CSRR` from 0x7C0, `CSRW` to 0xFC0 (R15, R16, R72, R73, D10). Safe. Log 15. -/
  | undefinedCSRAccess (n : CsrNumber) (direction : CsrDirection)
  deriving DecidableEq, Repr

/-- An instruction without a meaning. No instruction of TinyRV0 is one: every row has its meaning. -/
inductive Refusal where
  /-- Raised by `exec` alone, for an instruction the model has not reached. Safe: the machine stops. -/
  | notModelled (mnemonic : String)
  deriving DecidableEq, Repr

/-- R26: the model's bookkeeping of R8, not architectural state. -/
inductive Status where
  | running
  | faulted (f : Fault)
  deriving DecidableEq, Repr

/-- One move of the manager and the accelerator between two steps of the processor (R6, R111 to R113).
Log 5. -/
structure EnvMove where
  /-- The words the manager appends at the tail of `m2p` (R21, R111). -/
  deliver : List Word
  /-- Whether `p2m` is ready afterwards: `P2M_READY` (R112). -/
  p2mReady : Bool
  /-- The accelerator registers whose read stalls afterwards (R113). -/
  readStalls : List XcelReg
  /-- The accelerator registers whose write stalls afterwards (R113). -/
  writeStalls : List XcelReg
  deriving DecidableEq, Repr

/-- Memory: the bytes that a loader or a store has defined, by address, addresses strictly rising
(R20; `Memory.wf` in Machine/Ops.lean). Log 2. -/
abbrev Memory := List Host.Cell

/-- Everything the spec gives the machine (spec/10_state.md), and the environment of its runs. -/
structure State where
  /-- `x1` to `x31`; cell `i` is `x(i+1)`. `x0` holds no state (R10, R11). -/
  regs : Vector Word 31
  /-- The address of the instruction to execute (R13). -/
  pc : Word
  /-- R20. -/
  mem : Memory
  /-- Words the manager has delivered and the processor has not read, oldest first (R21). -/
  m2p : List Word
  /-- Every word the processor has written to the manager, oldest first (R21, R112). -/
  p2m : List Word
  /-- Whether `p2m` is ready at the next attempt (R112). -/
  p2mReady : Bool
  /-- The accelerator's state: the accesses it has completed, oldest first (R22, R113). -/
  xcelHistory : List XcelAccess
  /-- Accelerator registers whose read stalls at the next attempt (R113). -/
  xcelReadStalls : List XcelReg
  /-- Accelerator registers whose write stalls at the next attempt (R113). -/
  xcelWriteStalls : List XcelReg
  /-- The moves the environment will make, one after each step of the processor, first one first. -/
  env : List EnvMove
  /-- How many moves the environment has made; only the free value of an accelerator read looks at it. -/
  clock : Nat
  /-- R26. -/
  status : Status
  deriving DecidableEq, Repr

/-- R25, R120, R121. `pc`, `p2m` and `status` are the spec's; memory lists nothing, so that every byte is
the free value `Config.initMem`. DESIGN CHOICE, one log entry each: the general registers are zero (log 1),
the manager has delivered nothing (log 3) and is ready (log 4), the environment makes no move (logs 5, 8),
the accelerator has done nothing and stalls nowhere (logs 6, 7). `State.boot` takes all of them as arguments. -/
def State.reset : State where
  regs := Vector.replicate 31 0#32
  pc := Config.resetVector
  mem := []
  m2p := []
  p2m := []
  p2mReady := true
  xcelHistory := []
  xcelReadStalls := []
  xcelWriteStalls := []
  env := []
  clock := 0
  status := .running

/-- What an instruction answers. -/
abbrev Result := Host.Outcome State Fault Refusal

end Sys2Proof.Machine
end

