-- ==== Sys2Proof/Machine/Ops.lean ====
section
/-! DEFINITION. The named operations over registers, memory, the FIFOs, the accelerator and the CSRs, how
an instruction ends, and fetching. The meanings are written over these. -/

namespace Sys2Proof.Machine

/-! ## General registers (R10, R11) -/

/-- The cell of `x1` to `x31`, and zero for `x0` (R11). -/
def readCell (regs : Vector Word 31) (r : Reg) : Word :=
  if h : r.val = 0 then 0#32 else regs[r.val - 1]

/-- The cell replaced, and nothing for `x0` (R11: the value is discarded). -/
def writeCell (regs : Vector Word 31) (r : Reg) (v : Word) : Vector Word 31 :=
  if h : r.val = 0 then regs else regs.set (r.val - 1) v

/-- `x[r]` (R10, R11). -/
def State.reg (s : State) (r : Reg) : Word := readCell s.regs r

/-- `x[r] <- v` (R10, R11). -/
def State.setReg (s : State) (r : Reg) (v : Word) : State := { s with regs := writeCell s.regs r v }

/-! ## The other fields -/

def State.setPc (s : State) (a : Word) : State := { s with pc := a }

def State.setMem (s : State) (m : Memory) : State := { s with mem := m }

/-- `m2p` with its head taken (R15, R72). -/
def State.setM2p (s : State) (l : List Word) : State := { s with m2p := l }

/-- `v` appended at the tail of `p2m` (R16, R73). -/
def State.pushP2m (s : State) (v : Word) : State := { s with p2m := s.p2m ++ [v] }

/-- A completed accelerator access (R113: each yields a new accelerator state). -/
def State.recordXcel (s : State) (a : XcelAccess) : State := { s with xcelHistory := s.xcelHistory ++ [a] }

def State.setStatus (s : State) (st : Status) : State := { s with status := st }

/-! ## Memory (R20, R30, R32, R34, R35, R44) -/

/-- The canonical form: addresses strictly rising, and only addresses that exist. An address that is not
listed holds no defined byte, and no listed cell is equal to that. -/
abbrev Memory.wf (m : Memory) : Prop :=
  m.Pairwise (fun c d => c.1 < d.1) ∧ ∀ c ∈ m, c.1 < Config.memBytes

/-- The byte a loader or a store has defined at `a`, if any. -/
def Memory.find? : Memory → Nat → Option Byte
  | [], _ => none
  | (c, b) :: m, a => if a = c then some b else Memory.find? m a

/-- What reading one byte gives: the defined byte, else the free value (R44). The ONE place that says
what an unlisted address reads as. -/
def Memory.readByte (m : Memory) (a : Nat) : Byte := (Memory.find? m a).getD (Config.initMem a)

def Memory.writeByte : Memory → Nat → Byte → Memory
  | [], a, b => [(a, b)]
  | (c, x) :: m, a, b =>
    if a < c then (a, b) :: (c, x) :: m
    else if a = c then (a, b) :: m
    else (c, x) :: Memory.writeByte m a b

/-- `MemRead(a, 4)` (R34): little endian. Callers check `a` first. -/
def Memory.readWord (m : Memory) (a : Nat) : Word :=
  wordOfBytes (Memory.readByte m a) (Memory.readByte m (a + 1)) (Memory.readByte m (a + 2))
    (Memory.readByte m (a + 3))

/-- `MemWrite(a, 4, v)` (R35): four bytes, little endian, no other byte. Callers check `a` first. -/
def Memory.writeWord (m : Memory) (a : Nat) (v : Word) : Memory :=
  Memory.writeByte (Memory.writeByte (Memory.writeByte (Memory.writeByte m a (byteOf v 0)) (a + 1) (byteOf v 1))
    (a + 2) (byteOf v 2)) (a + 3) (byteOf v 3)

/-- A multiple of 4 (R33, R36). -/
def aligned (a : Word) : Bool := a.extractLsb' 0 2 == 0#2

/-- Not above `0x000FFFFF`, as an unsigned 32-bit number (R31). -/
def inRange (a : Word) : Bool := decide (a.toNat < Config.memBytes)

/-- The two checks of a data access, in their order (R92): the fault, if one fires. -/
def accessFault (addr : Word) : Option Fault :=
  if !aligned addr then some (.misalignedAccess addr)
  else if !inRange addr then some (.addressOutOfRange addr)
  else none

/-! ## How an instruction ends (R7) -/

/-- `raise` (R5, R100, R104): the machine stops with this fault. There is no trap entry: no register
is saved, no mode changes, no vector is consulted; there is no return either (R105). -/
def raise (f : Fault) : Result := .fault f

/-- Complete, other than by a taken branch: `pc <- pc + 4` modulo 2^32 (R96). -/
def complete (s : State) : Result := .next (s.setPc (s.pc + 4#32))

/-- Complete by a taken branch: `pc <- target` (R95). -/
def completeAt (target : Word) (s : State) : Result := .next (s.setPc target)

/-- Stall (R74): the instruction does not complete, nothing changes, and it is attempted again. -/
def stall (s : State) : Result := .next s

/-! ## CSR access primitives (R72, R73) -/

/-- How a CSR primitive ends: done, stalled or faulted. -/
inductive CsrAnswer (α : Type) where
  | done (a : α)
  | stalled
  | faulted (f : Fault)
  deriving DecidableEq, Repr

/-- `Xcel.read(k)` (R113): the word and the new state, or a stall. -/
def xcelReadReg (k : XcelReg) (s : State) : CsrAnswer (Word × State) :=
  if k ∈ s.xcelReadStalls then .stalled
  else .done (Config.xcelRead s.clock s.xcelHistory k, s.recordXcel (.read k))

/-- `Xcel.write(k, v)` (R113): the new state, or a stall. -/
def xcelWriteReg (k : XcelReg) (v : Word) (s : State) : CsrAnswer State :=
  if k ∈ s.xcelWriteStalls then .stalled else .done (s.recordXcel (.write k v))

/-- The dequeue of `mngr2proc` (R15, R72). -/
def dequeueM2p (s : State) : CsrAnswer (Word × State) :=
  match s.m2p with
  | [] => .stalled
  | v :: rest => .done (v, s.setM2p rest)

/-- The enqueue of `proc2mngr` (R16, R73). -/
def enqueueP2m (v : Word) (s : State) : CsrAnswer State :=
  if s.p2mReady then .done (s.pushP2m v) else .stalled

/-- `CSRRead(n)` (R72). -/
def csrRead (n : CsrNumber) (s : State) : CsrAnswer (Word × State) :=
  match csrOfNumber n with
  | some .mngr2proc => dequeueM2p s
  | some .proc2mngr => .faulted (.undefinedCSRAccess n .read)
  | some (.xcelreg k) => xcelReadReg k s
  | none => .faulted (.unsupportedCSR n)

/-- `CSRWrite(n, v)` (R73). -/
def csrWrite (n : CsrNumber) (v : Word) (s : State) : CsrAnswer State :=
  match csrOfNumber n with
  | some .proc2mngr => enqueueP2m v s
  | some .mngr2proc => .faulted (.undefinedCSRAccess n .write)
  | some (.xcelreg k) => xcelWriteReg k v s
  | none => .faulted (.unsupportedCSR n)

/-! ## Fetch (R7 lines 1 to 4, R36) -/

/-- The instruction at `pc`, or the first fault of R7: misaligned, out of range, illegal. -/
def fetch (s : State) : Except Fault Instr :=
  if !aligned s.pc then .error (.misalignedFetch s.pc)
  else if !inRange s.pc then .error (.fetchOutOfRange s.pc)
  else
    let inst := Memory.readWord s.mem s.pc.toNat
    match decodeWord inst with
    | .ok i => .ok i
    | .error _ => .error (.illegalInstruction s.pc inst)

end Sys2Proof.Machine
end

