-- ==== Sys2Proof/Machine/Operands.lean ====
section
/-! DEFINITION. The operand forms: the three immediates, the one addressing mode, the shift amount and the
branch target (spec/30_encoding.md R54 to R56; spec/42_mem.md R92; spec/41_arith.md R85; spec/43_branch.md R95). -/

namespace Sys2Proof.Machine

/-- R54: `immI`, sign-extended to 32 bits. -/
def immI (imm : BitVec 12) : Word := imm.signExtend 32

/-- R55: `immS`, sign-extended to 32 bits. -/
def immS (imm : BitVec 12) : Word := imm.signExtend 32

/-- R56: `immB`, sign-extended to 32 bits, in bytes. -/
def immB (imm : BitVec 13) : Word := imm.signExtend 32

/-- R92: base register plus offset, modulo 2^32; the base register is not modified. -/
def effectiveAddress (base : Reg) (offset : Word) (s : State) : Word := s.reg base + offset

/-- R85: the low five bits of the register, 0 to 31. -/
def shiftAmount (r : Reg) (s : State) : Nat := ((s.reg r).extractLsb' 0 5).toNat

/-- R95: relative to the branch's own address, modulo 2^32. -/
def branchTarget (offset : Word) (s : State) : Word := s.pc + offset

end Sys2Proof.Machine
end

