-- ==== Sys2Proof/Machine/Arith.lean ====
section
/-! DEFINITION. ADD, AND, SLL, SRL, ADDI (spec/41_arith.md). Sources are read in the state before the
write (R86); none faults, stalls or touches memory, a CSR or a FIFO. -/

namespace Sys2Proof.Machine

/-- R80, R85: modulo 2^32, no overflow exception. -/
def execAdd (rd rs1 rs2 : Reg) (s : State) : Result :=
  complete (s.setReg rd (s.reg rs1 + s.reg rs2))

/-- R81. -/
def execAnd (rd rs1 rs2 : Reg) (s : State) : Result :=
  complete (s.setReg rd (s.reg rs1 &&& s.reg rs2))

/-- R82, R85: zeros enter at bit 0. -/
def execSll (rd rs1 rs2 : Reg) (s : State) : Result :=
  complete (s.setReg rd (s.reg rs1 <<< shiftAmount rs2 s))

/-- R83, R85: zeros enter at bit 31. -/
def execSrl (rd rs1 rs2 : Reg) (s : State) : Result :=
  complete (s.setReg rd (s.reg rs1 >>> shiftAmount rs2 s))

/-- R84, R54. -/
def execAddi (rd rs1 : Reg) (imm : BitVec 12) (s : State) : Result :=
  complete (s.setReg rd (s.reg rs1 + immI imm))

end Sys2Proof.Machine
end

