-- ==== Sys2Proof/Machine/Flags.lean ====
section
/-! DEFINITION. TinyRV0 has no flags and no condition codes (spec/10_state.md R23): no instruction sets or
reads one. The one condition an instruction tests is `BNE`'s comparison of two registers. -/

namespace Sys2Proof.Machine

/-- R95: all 32 bits compared; signedness plays no part. -/
def registersDiffer (rs1 rs2 : Reg) (s : State) : Bool := s.reg rs1 != s.reg rs2

end Sys2Proof.Machine
end

