-- ==== Sys2Proof/Machine/Branch.lean ====
section
/-! DEFINITION. BNE (spec/43_branch.md). -/

namespace Sys2Proof.Machine

/-- R95: the target is examined only when the branch is taken; no delay slot. -/
def execBne (rs1 rs2 : Reg) (imm : BitVec 13) (s : State) : Result :=
  if registersDiffer rs1 rs2 s then
    let target := branchTarget (immB imm) s
    if aligned target then completeAt target s else raise (.misalignedBranchTarget s.pc target)
  else complete s

end Sys2Proof.Machine
end

