-- ==== Sys2Proof/Machine/CsrInstr.lean ====
section
/-! DEFINITION. CSRR and CSRW (spec/40_csr.md). -/

namespace Sys2Proof.Machine

/-- R70: the read with all its effects happens for `rd = x0` too (R59, D12). -/
def execCsrr (rd : Reg) (csr : CsrNumber) (s : State) : Result :=
  match csrRead csr s with
  | .done (v, t) => complete (t.setReg rd v)
  | .stalled => stall s
  | .faulted f => raise f

/-- R71: no read half. -/
def execCsrw (csr : CsrNumber) (rs1 : Reg) (s : State) : Result :=
  match csrWrite csr (s.reg rs1) s with
  | .done t => complete t
  | .stalled => stall s
  | .faulted f => raise f

end Sys2Proof.Machine
end

