-- ==== Sys2Proof/Machine/LoadStore.lean ====
section
/-! DEFINITION. LW and SW (spec/42_mem.md). -/

namespace Sys2Proof.Machine

/-- R90: the checks of R92, then the whole word to `rd`. The checks and the read happen for `rd = x0` too. -/
def execLw (rd rs1 : Reg) (imm : BitVec 12) (s : State) : Result :=
  let addr := effectiveAddress rs1 (immI imm) s
  match accessFault addr with
  | some f => raise f
  | none => complete (s.setReg rd (Memory.readWord s.mem addr.toNat))

/-- R91: the checks of R92, then four bytes of memory. -/
def execSw (rs2 rs1 : Reg) (imm : BitVec 12) (s : State) : Result :=
  let addr := effectiveAddress rs1 (immS imm) s
  match accessFault addr with
  | some f => raise f
  | none => complete (s.setMem (Memory.writeWord s.mem addr.toNat (s.reg rs2)))

end Sys2Proof.Machine
end

