-- ==== Sys2Proof/Machine/Environment.lean ====
section
/-! DEFINITION. The manager and the accelerator as agents (spec/00_scope.md R6; spec/60_exceptions.md R110
to R113; spec/70_reset_and_hazards.md R128). Log 5. -/

namespace Sys2Proof.Machine

/-- The manager and the accelerator make the move `m`: words arrive at the tail of `m2p`, and what the
next attempts find is as the move says. Registers, `pc`, memory, `p2m` and the accelerator's completed
accesses are out of their reach (R40, R113). -/
def State.takeMove (s : State) (m : EnvMove) : State :=
  { s with
    m2p := s.m2p ++ m.deliver
    p2mReady := m.p2mReady
    xcelReadStalls := m.readStalls
    xcelWriteStalls := m.writeStalls
    clock := s.clock + 1 }

/-- The environment's turn: its next move, or none when `env` lists no more (then a stall that waits for
one lasts for ever: R74, R111). -/
def State.environmentTurn (s : State) : State :=
  match s.env with
  | [] => { s with clock := s.clock + 1 }
  | m :: rest => { s.takeMove m with env := rest }

end Sys2Proof.Machine
end

