-- ==== Sys2Proof/Machine/Step.lean ====
section
/-! DEFINITION. One step (spec/00_scope.md R7, R8), and placing the next instruction. -/

namespace Sys2Proof.Machine

/-- R7: fetch, then the instruction's rule; after a step that completes or stalls, the environment's turn.
R8: a Faulted machine takes no step, and answers its fault again. -/
def step (s : State) : Host.Outcome State Fault Refusal :=
  match s.status with
  | .faulted f => raise f
  | .running =>
    match fetch s with
    | .error f => raise f
    | .ok i =>
      match exec i s with
      | .next t => .next t.environmentTurn
      | .fault f => .fault f
      | .refused r => .refused r

/-- `s` with the table word `w` of `nbits` bits stored at `pc`, where the next step fetches (R36); every
bit from `nbits` up is zero. Where no fetch is possible (R7 lines 1 and 2) nothing is stored. Log 10. -/
def State.withFetchWord (s : State) (nbits w : Nat) : State :=
  if aligned s.pc && inRange s.pc then
    s.setMem (Memory.writeWord s.mem s.pc.toNat (BitVec.ofNat 32 (w % 2 ^ nbits)))
  else s

end Sys2Proof.Machine
end

