-- ==== Sys2Proof/Machine/Assembly.lean ====
section
/-! DEFINITION. Assembler text, operand ranges and idioms (spec/30_encoding.md R62, R64, R66; spec/10_state.md
R12; D23, D24). Nothing here changes what the machine does. Log 21. -/

namespace Sys2Proof.Machine

/-- `x0` to `x31`. -/
def registerName (r : Reg) : String := "x" ++ toString r.val

/-- The symbolic names of R12, which the spec takes from general knowledge. -/
def symbolicNames : List String :=
  ["zero", "ra", "sp", "gp", "tp", "t0", "t1", "t2", "s0", "s1", "a0", "a1", "a2", "a3", "a4", "a5"] ++
  ["a6", "a7", "s2", "s3", "s4", "s5", "s6", "s7", "s8", "s9", "s10", "s11", "t3", "t4", "t5", "t6"]

def symbolicName (r : Reg) : String := symbolicNames.getD r.val ""

/-- R12: each symbolic name, and `fp` for `x8`, is another way to write the numeric specifier. -/
def registerOfName (name : String) : Option Reg :=
  if name = "fp" then some 8
  else (List.finRange 32).find? (fun r => name == registerName r || name == symbolicName r)

/-- The CSR names of R62: `xcelregNN` is `0x7E0 + NN - 1` with two decimal digits (D23). -/
def csrName : Csr → String
  | .proc2mngr => "proc2mngr"
  | .mngr2proc => "mngr2proc"
  | .xcelreg k => "xcelreg" ++ (if k.val + 1 < 10 then "0" else "") ++ toString (k.val + 1)

/-- A CSR operand: its name, or its number where it names no CSR. -/
def csrText (n : CsrNumber) : String :=
  match csrOfNumber n with
  | some c => csrName c
  | none => toString n.toNat

/-- One line of assembly text (R62). -/
def assembly : Instr → String
  | .csrr rd csr => "csrr " ++ registerName rd ++ ", " ++ csrText csr
  | .csrw csr rs1 => "csrw " ++ csrText csr ++ ", " ++ registerName rs1
  | .add rd rs1 rs2 => "add " ++ registerName rd ++ ", " ++ registerName rs1 ++ ", " ++ registerName rs2
  | .and rd rs1 rs2 => "and " ++ registerName rd ++ ", " ++ registerName rs1 ++ ", " ++ registerName rs2
  | .sll rd rs1 rs2 => "sll " ++ registerName rd ++ ", " ++ registerName rs1 ++ ", " ++ registerName rs2
  | .srl rd rs1 rs2 => "srl " ++ registerName rd ++ ", " ++ registerName rs1 ++ ", " ++ registerName rs2
  | .addi rd rs1 imm => "addi " ++ registerName rd ++ ", " ++ registerName rs1 ++ ", " ++ toString imm.toInt
  | .lw rd rs1 imm => "lw " ++ registerName rd ++ ", " ++ toString imm.toInt ++ "(" ++ registerName rs1 ++ ")"
  | .sw rs2 rs1 imm => "sw " ++ registerName rs2 ++ ", " ++ toString imm.toInt ++ "(" ++ registerName rs1 ++ ")"
  | .bne rs1 rs2 imm => "bne " ++ registerName rs1 ++ ", " ++ registerName rs2 ++ ", " ++ toString imm.toInt

/-! ## Operand ranges (R64) -/

/-- The 12 bits of an `addi`, `lw` or `sw` immediate: -2048 to +2047. -/
def immediateOperand (n : Int) : Option (BitVec 12) :=
  if -2048 ≤ n ∧ n ≤ 2047 then some (BitVec.ofInt 12 n) else none

/-- The 13 bits of a `bne` offset: even, -4096 to +4094. -/
def branchOperand (n : Int) : Option (BitVec 13) :=
  if -4096 ≤ n ∧ n ≤ 4094 ∧ n % 2 = 0 then some (BitVec.ofInt 13 n) else none

/-- A CSR number: 0 to 4095. -/
def csrOperand (n : Nat) : Option CsrNumber := if n ≤ 4095 then some (BitVec.ofNat 12 n) else none

/-- D24: a label stands for its distance from the branch's own address. -/
def labelOperand (label addressOfBne : Word) : Option (BitVec 13) :=
  branchOperand ((label.toNat : Int) - (addressOfBne.toNat : Int))

/-! ## Idioms (R66) -/

def nop : Instr := .addi 0 0 0#12

def mv (rd rs : Reg) : Instr := .addi rd rs 0#12

def li (rd : Reg) (n : Int) : Option Instr := (immediateOperand n).map (.addi rd 0)

def bnez (rs : Reg) (n : Int) : Option Instr := (branchOperand n).map (.bne rs 0)

end Sys2Proof.Machine
end

