-- ==== Sys2Proof/Machine/Boot.lean ====
section
/-! DEFINITION. The start of a run as a function of the parameters the spec leaves open (spec/00_scope.md R4;
spec/92_eei_decisions.md, "Parameters the model takes as arguments"; spec/70_reset_and_hazards.md R120 to R122). -/

namespace Sys2Proof.Machine

/-- Which of the 2^18 aligned words of memory: word `i` is at address `4 * i`. -/
abbrev WordIndex := Fin 0x40000

/-- What is in place when the processor leaves reset. -/
structure BootParams where
  /-- `InitRegs`: `x1` to `x31` (D14). -/
  initRegs : Vector Word 31
  /-- `InitMem`: the image, a partial map from aligned word addresses to words (D15); of two entries for
  one word the later holds. -/
  initMem : List (WordIndex × Word)
  /-- `M2P`: the words the manager has delivered by then (D16). -/
  m2p : List Word
  /-- `P2M_READY` at the first attempt (D16). -/
  p2mReady : Bool
  /-- `Xcel`: where the first attempts stall (D11). -/
  xcelReadStalls : List XcelReg
  xcelWriteStalls : List XcelReg
  /-- `M2P`, `P2M_READY` and `Xcel` afterwards: the environment's moves. -/
  env : List EnvMove
  deriving DecidableEq, Repr

/-- The loader (R122): each word of the image with the byte order of R32. -/
def Memory.load (image : List (WordIndex × Word)) : Memory :=
  image.foldl (fun m e => Memory.writeWord m (4 * e.1.val) e.2) []

/-- The initial state of a run (R25, R120): everything the spec fixes, and its open parameters. -/
def State.boot (p : BootParams) : State :=
  { State.reset with
    regs := p.initRegs
    mem := Memory.load p.initMem
    m2p := p.m2p
    p2mReady := p.p2mReady
    xcelReadStalls := p.xcelReadStalls
    xcelWriteStalls := p.xcelWriteStalls
    env := p.env }

end Sys2Proof.Machine
end

