-- ==== Sys2Proof/Safety.lean ====
section
/-! DEFINITION. Faulted machines, the end of a run, the invariant and the terms claims use
(spec/00_scope.md R8; spec/60_exceptions.md R104; spec/70_reset_and_hazards.md R127). -/

namespace Sys2Proof.Machine

/-- R8, R26, R104: a step with its fault recorded: nothing changes but that the machine is Faulted. -/
def State.afterStep (s : State) : State :=
  match step s with
  | .next t => t
  | .fault f => s.setStatus (.faulted f)
  | .refused _ => s

/-- `k` steps, stopping at the first fault (R8). -/
def steps : Nat → State → Result
  | 0, s => .next s
  | k + 1, s =>
    match step s with
    | .next t => steps k t
    | .fault f => .fault f
    | .refused r => .refused r

/-- `EndOfRun` (R127, D22): what ends a run is an argument, in one of its two forms. -/
inductive EndOfRun where
  /-- The run ends when `pc` first equals this address; the instruction there is not executed. -/
  | atAddress (stop : Word)
  /-- The run ends when `p2m` has received this many words. -/
  | afterWords (n : Nat)
  deriving DecidableEq, Repr

/-- The condition itself, whatever the status is; that a Faulted machine has not ended is `runVerdict`'s. -/
def EndOfRun.holds (e : EndOfRun) (s : State) : Bool :=
  match e with
  | .atAddress stop => s.pc == stop
  | .afterWords n => decide (n ≤ s.p2m.length)

/-- Where a run of at most a given number of steps stands. -/
inductive RunOutcome where
  /-- The end condition holds in this state, which is not Faulted (R8), for the first time (R127). -/
  | ended (s : State)
  /-- The run faulted: this is the Faulted state (R8: not a successful end). -/
  | faulted (s : State)
  /-- Neither yet. -/
  | unfinished (s : State)
  deriving DecidableEq, Repr

/-- Whether a run is over before its next step, and how. R8: a Faulted machine has not ended successfully,
wherever its `pc` and its FIFOs stand; R127: any other run is over where `e` holds. -/
def runVerdict (e : EndOfRun) (s : State) : Option RunOutcome :=
  match s.status with
  | .faulted _ => some (.faulted s)
  | .running => if e.holds s then some (.ended s) else none

/-- At most `fuel` steps, ending at the first state that is Faulted (R8) or where `e` holds (R127). -/
def runUntil (e : EndOfRun) : Nat → State → RunOutcome
  | 0, s => (runVerdict e s).getD (.unfinished s)
  | fuel + 1, s =>
    match runVerdict e s with
    | some o => o
    | none =>
      match step s with
      | .next t => runUntil e fuel t
      | .fault f => .faulted (s.setStatus (.faulted f))
      | .refused _ => .unfinished s

/-- What every run keeps: memory in canonical form (R20, R30), an aligned `pc` (R13), and no recorded
fault (R8, R26). -/
abbrev State.Inv (s : State) : Prop :=
  Memory.wf s.mem ∧ aligned s.pc = true ∧ s.status = .running

/-- The machine can fetch at `pc` (R7 lines 1 and 2) and is not Faulted. -/
abbrev State.canFetch (s : State) : Prop :=
  s.status = .running ∧ aligned s.pc = true ∧ inRange s.pc = true

/-- The instruction is one of the two that reach a CSR (spec/40_csr.md). -/
def usesCsr : Instr → Bool
  | .csrr .. | .csrw .. => true
  | .add .. | .and .. | .sll .. | .srl .. | .addi .. | .lw .. | .sw .. | .bne .. => false

/-- When an instruction stalls (R72, R73, R74, R113): its FIFO or accelerator condition does not hold. -/
def Stalls (i : Instr) (s : State) : Prop :=
  match i with
  | .csrr _ csr => (csr = 0xFC0#12 ∧ s.m2p = []) ∨ ∃ k ∈ s.xcelReadStalls, csr.toNat = 0x7E0 + k.val
  | .csrw csr _ => (csr = 0x7C0#12 ∧ s.p2mReady = false) ∨ ∃ k ∈ s.xcelWriteStalls, csr.toNat = 0x7E0 + k.val
  | .add .. | .and .. | .sll .. | .srl .. | .addi .. | .lw .. | .sw .. | .bne .. => False

/-- The 34 CSR numbers of R14. -/
def isCsrNumber (n : CsrNumber) : Prop :=
  n = 0x7C0#12 ∨ n = 0xFC0#12 ∨ (0x7E0 ≤ n.toNat ∧ n.toNat ≤ 0x7FF)

/-- Everything outside the processor's registers, `pc` and memory is the same: the FIFOs, the
accelerator, the environment and the status. -/
def SameOutside (s t : State) : Prop :=
  t.m2p = s.m2p ∧ t.p2m = s.p2m ∧ t.p2mReady = s.p2mReady ∧ t.xcelHistory = s.xcelHistory ∧
  t.xcelReadStalls = s.xcelReadStalls ∧ t.xcelWriteStalls = s.xcelWriteStalls ∧
  t.env = s.env ∧ t.clock = s.clock ∧ t.status = s.status

/-- Every byte of memory reads as before. -/
def SameMemory (s t : State) : Prop := ∀ a : Nat, Memory.readByte t.mem a = Memory.readByte s.mem a

/-- Every general register reads as before. -/
def SameRegisters (s t : State) : Prop := ∀ r : Reg, t.reg r = s.reg r

/-- Every general register reads as before, but that `rd` reads as `v`; with `rd = x0` nothing is written
(R11). -/
def OnlyRegister (rd : Reg) (v : Word) (s t : State) : Prop :=
  ∀ r : Reg, t.reg r = if r = rd ∧ r ≠ 0 then v else s.reg r

end Sys2Proof.Machine
end

