-- ==== Sys2Proof/Certificates/Slice0/Obligations.lean ====
section
/-! DEFINITION. What is claimed of the model. Each docstring names the rule of the spec the statement
formalises; where a clause is the spec's own decision or the model's own choice, it says so. -/

open Sys2Proof Sys2Proof.Machine

/-! ## Words and instructions -/

/-- Every well-formed instruction survives encoding: no operand bit is dropped, at any value (R57, R60, R61,
R54 to R56). The fixed fields of CSRR and CSRW are the spec's decision D4. -/
def Obligations.DecodeOfEncode : Prop :=
  ∀ i : Instr, i.wellFormed = true → decodeWord (encode i) = .ok i

/-- Every word that decodes stands for one well-formed instruction, whose encoding is that word: the decoder
reads every bit (R57). -/
def Obligations.EncodeOfDecode : Prop :=
  ∀ (w : Word) (i : Instr), decodeWord w = .ok i → i.wellFormed = true ∧ encode i = w

/-- R57, R60, R61 for the five instructions that reach memory, a CSR or the pc: a word is that instruction
exactly when it matches the row's mask, and its operands are the stated bit fields. The masks of CSRR and
CSRW are the spec's decision D4. -/
def Obligations.OperandFieldsOfWords : Prop :=
  (∀ (w : Word) (rd : Reg) (csr : CsrNumber), decodeWord w = .ok (.csrr rd csr) ↔
    w &&& 0x000FF07F#32 = 0x00002073#32 ∧ rd.val = w.toNat / 2 ^ 7 % 32 ∧ csr.toNat = w.toNat / 2 ^ 20) ∧
  (∀ (w : Word) (csr : CsrNumber) (rs1 : Reg), decodeWord w = .ok (.csrw csr rs1) ↔
    w &&& 0x00007FFF#32 = 0x00001073#32 ∧ csr.toNat = w.toNat / 2 ^ 20 ∧ rs1.val = w.toNat / 2 ^ 15 % 32) ∧
  (∀ (w : Word) (rd rs1 : Reg) (imm : BitVec 12), decodeWord w = .ok (.lw rd rs1 imm) ↔
    w &&& 0x0000707F#32 = 0x00002003#32 ∧ rd.val = w.toNat / 2 ^ 7 % 32 ∧ rs1.val = w.toNat / 2 ^ 15 % 32 ∧
      imm.toNat = w.toNat / 2 ^ 20) ∧
  (∀ (w : Word) (rs2 rs1 : Reg) (imm : BitVec 12), decodeWord w = .ok (.sw rs2 rs1 imm) ↔
    w &&& 0x0000707F#32 = 0x00002023#32 ∧ rs2.val = w.toNat / 2 ^ 20 % 32 ∧ rs1.val = w.toNat / 2 ^ 15 % 32 ∧
      imm.toNat = w.toNat / 2 ^ 25 * 32 + w.toNat / 2 ^ 7 % 32) ∧
  (∀ (w : Word) (rs1 rs2 : Reg) (imm : BitVec 13), decodeWord w = .ok (.bne rs1 rs2 imm) ↔
    w &&& 0x0000707F#32 = 0x00001063#32 ∧ rs1.val = w.toNat / 2 ^ 15 % 32 ∧ rs2.val = w.toNat / 2 ^ 20 % 32 ∧
      imm.toNat = w.toNat / 2 ^ 31 * 2 ^ 12 + w.toNat / 2 ^ 7 % 2 * 2 ^ 11 + w.toNat / 2 ^ 25 % 64 * 2 ^ 5 +
        w.toNat / 2 ^ 8 % 16 * 2)

/-- R54: the I-immediate, bit by bit, and its range. -/
def Obligations.ImmediateOfIType : Prop :=
  ∀ (w : Word) (rd rs1 : Reg) (imm : BitVec 12),
    (decodeWord w = .ok (.addi rd rs1 imm) ∨ decodeWord w = .ok (.lw rd rs1 imm)) →
    (∀ k < 32, (imm.signExtend 32).getLsbD k = if 11 ≤ k then w.getLsbD 31 else w.getLsbD (20 + k)) ∧
    imm.signExtend 32 = (w.extractLsb' 20 12).signExtend 32 ∧
    -2048 ≤ (imm.signExtend 32).toInt ∧ (imm.signExtend 32).toInt ≤ 2047

/-- R55: the S-immediate, bit by bit, and its range. -/
def Obligations.ImmediateOfSType : Prop :=
  ∀ (w : Word) (rs2 rs1 : Reg) (imm : BitVec 12), decodeWord w = .ok (.sw rs2 rs1 imm) →
    (∀ k < 32, (imm.signExtend 32).getLsbD k =
      if 11 ≤ k then w.getLsbD 31 else if 5 ≤ k then w.getLsbD (20 + k) else w.getLsbD (7 + k)) ∧
    imm.signExtend 32 = (w.extractLsb' 25 7 ++ w.extractLsb' 7 5).signExtend 32 ∧
    -2048 ≤ (imm.signExtend 32).toInt ∧ (imm.signExtend 32).toInt ≤ 2047

/-- R56: the B-immediate, bit by bit, its range and evenness, and how it is encoded. -/
def Obligations.ImmediateOfBType : Prop :=
  (∀ (w : Word) (rs1 rs2 : Reg) (imm : BitVec 13), decodeWord w = .ok (.bne rs1 rs2 imm) →
    (∀ k < 32, (imm.signExtend 32).getLsbD k =
      if 12 ≤ k then w.getLsbD 31 else if k = 11 then w.getLsbD 7 else if 5 ≤ k then w.getLsbD (20 + k)
      else if 1 ≤ k then w.getLsbD (7 + k) else false) ∧
    -4096 ≤ (imm.signExtend 32).toInt ∧ (imm.signExtend 32).toInt ≤ 4094 ∧
    (imm.signExtend 32).toInt % 2 = 0) ∧
  (∀ (rs1 rs2 : Reg) (imm : BitVec 13), imm.getLsbD 0 = false →
    (encode (.bne rs1 rs2 imm)).getLsbD 31 = imm.getLsbD 12 ∧
    (encode (.bne rs1 rs2 imm)).extractLsb' 25 6 = imm.extractLsb' 5 6 ∧
    (encode (.bne rs1 rs2 imm)).extractLsb' 8 4 = imm.extractLsb' 1 4 ∧
    (encode (.bne rs1 rs2 imm)).getLsbD 7 = imm.getLsbD 11)

/-- Words written out from the encodings of R57 stand for the instructions the spec says (Part 2 of the test
vectors). A sanity statement. -/
def Obligations.KnownWordsDecode : Prop :=
  decodeWord 0x002081B3#32 = .ok (.add 3 1 2) ∧
  decodeWord 0x007372B3#32 = .ok (.and 5 6 7) ∧
  decodeWord 0x00C59533#32 = .ok (.sll 10 11 12) ∧
  decodeWord 0x01DF5FB3#32 = .ok (.srl 31 30 29) ∧
  decodeWord 0xFFF10113#32 = .ok (.addi 2 2 0xFFF#12) ∧
  decodeWord 0x00832283#32 = .ok (.lw 5 6 8#12) ∧
  decodeWord 0xFE742C23#32 = .ok (.sw 7 8 0xFF8#12) ∧
  decodeWord 0xFE009CE3#32 = .ok (.bne 1 0 0x1FF8#13) ∧
  decodeWord 0xFC0020F3#32 = .ok (.csrr 1 0xFC0#12) ∧
  decodeWord 0x7C019073#32 = .ok (.csrw 0x7C0#12 3)

/-- R50, R36: every instruction is four bytes, least significant first, and the decoder is total on bytes:
fewer than four are refused by name, and of four or more it reads the first four. -/
def Obligations.BytesDecodeAsWords : Prop :=
  (∀ (w : Word) (rest : List Byte), decodeBytes (bytesOfWord w ++ rest) =
    match decodeWord w with
    | .ok i => .ok (i, rest)
    | .error e => .error e) ∧
  (∀ bytes : List Byte, bytes.length < 4 → decodeBytes bytes = .error .truncated) ∧
  (∀ b0 b1 b2 b3 : Byte, ∃ w : Word, bytesOfWord w = [b0, b1, b2, b3] ∧
    w.toNat = b0.toNat + b1.toNat * 2 ^ 8 + b2.toNat * 2 ^ 16 + b3.toNat * 2 ^ 24)

/-- R14, R18: the 34 CSR numbers, each naming one CSR, and no other number naming any. That a number outside
them faults is `CsrNumberFaults`. -/
def Obligations.CsrNumbersAreThirtyFour : Prop :=
  (∀ c : Csr, csrOfNumber (csrNumber c) = some c) ∧
  (∀ (n : CsrNumber) (c : Csr), csrOfNumber n = some c → csrNumber c = n) ∧
  (∀ n : CsrNumber, csrOfNumber n = none ↔ ¬ isCsrNumber n) ∧
  (csrNumber .proc2mngr).toNat = 0x7C0 ∧ (csrNumber .mngr2proc).toNat = 0xFC0 ∧
  (∀ k : XcelReg, (csrNumber (.xcelreg k)).toNat = 0x7E0 + k.val)

/-- R64: the assembler's operand ranges, and that an operand in range is encoded as the number it is. The
even offsets that are no multiple of 4 are encodable (R64). -/
def Obligations.AssembledOperandsKeepTheirValue : Prop :=
  (∀ n : Int, (-2048 ≤ n ∧ n ≤ 2047) → ∃ imm, immediateOperand n = some imm ∧ imm.toInt = n ∧
    immI imm = BitVec.ofInt 32 n ∧ immS imm = BitVec.ofInt 32 n) ∧
  (∀ n : Int, (n < -2048 ∨ 2047 < n) → immediateOperand n = none) ∧
  (∀ n : Int, (-4096 ≤ n ∧ n ≤ 4094 ∧ n % 2 = 0) → ∃ imm, branchOperand n = some imm ∧ imm.toInt = n ∧
    immB imm = BitVec.ofInt 32 n ∧ ∀ rs1 rs2 : Reg, (Instr.bne rs1 rs2 imm).wellFormed = true) ∧
  (∀ n : Int, (n < -4096 ∨ 4094 < n ∨ n % 2 ≠ 0) → branchOperand n = none) ∧
  (∀ n : Nat, n ≤ 4095 → ∃ csr, csrOperand n = some csr ∧ csr.toNat = n) ∧
  (∀ n : Nat, 4095 < n → csrOperand n = none)

/-! ## Registers -/

/-- R10: a register holds the last value written to it, the registers are independent, and they are written
only by ADD, AND, SLL, SRL, ADDI, LW and CSRR, through rd. -/
def Obligations.GeneralRegistersHoldWhatIsWritten : Prop :=
  (∀ (s : State) (r : Reg) (v : Word), r ≠ 0 → (s.setReg r v).reg r = v) ∧
  (∀ (s : State) (r q : Reg) (v : Word), q ≠ r → (s.setReg r v).reg q = s.reg q) ∧
  (∀ s : State, s.reg 0 = 0#32) ∧
  (∀ (i : Instr) (s t : State) (r : Reg), exec i s = .next t → t.reg r ≠ s.reg r →
    (∃ a b, i = .add r a b ∨ i = .and r a b ∨ i = .sll r a b ∨ i = .srl r a b) ∨
    (∃ a imm, i = .addi r a imm ∨ i = .lw r a imm) ∨ (∃ csr, i = .csrr r csr))

/-- R11, R59: x0 reads as zero, a write to it is discarded, and an instruction whose destination is x0 does
everything else: the arithmetic ones only advance the pc, LW makes its checks, CSRR takes its word. That the
access is still made is the spec's decision D13. -/
def Obligations.ZeroRegisterDiscardsWrites : Prop :=
  (∀ (s : State) (v : Word), (s.setReg 0 v).reg 0 = 0#32 ∧ s.setReg 0 v = s) ∧
  (∀ (s : State) (rs1 rs2 : Reg) (imm : BitVec 12),
    exec (.add 0 rs1 rs2) s = .next (s.setPc (s.pc + 4#32)) ∧
    exec (.and 0 rs1 rs2) s = .next (s.setPc (s.pc + 4#32)) ∧
    exec (.sll 0 rs1 rs2) s = .next (s.setPc (s.pc + 4#32)) ∧
    exec (.srl 0 rs1 rs2) s = .next (s.setPc (s.pc + 4#32)) ∧
    exec (.addi 0 rs1 imm) s = .next (s.setPc (s.pc + 4#32)) ∧
    (accessFault (s.reg rs1 + imm.signExtend 32) = none →
      exec (.lw 0 rs1 imm) s = .next (s.setPc (s.pc + 4#32))) ∧
    (∀ f, accessFault (s.reg rs1 + imm.signExtend 32) = some f → exec (.lw 0 rs1 imm) s = .fault f)) ∧
  (∀ (s : State) (v : Word) (rest : List Word), s.m2p = v :: rest →
    exec (.csrr 0 0xFC0#12) s = .next ((s.setM2p rest).setPc (s.pc + 4#32)))

/-- R86: an instruction whose destination is also a source uses the old value; x0 reads zero and discards. -/
def Obligations.SourcesReadBeforeDestination : Prop :=
  (∀ (s : State) (v : Word), s.reg 0 = 0#32 ∧ s.setReg 0 v = s) ∧
  ∀ (s : State) (r : Reg), r ≠ 0 →
    (∃ t, exec (.add r r r) s = .next t ∧ t.reg r = s.reg r + s.reg r) ∧
    (∃ t, exec (.and r r r) s = .next t ∧ t.reg r = s.reg r) ∧
    (∃ t, exec (.sll r r r) s = .next t ∧ t.reg r = s.reg r <<< ((s.reg r).toNat % 32)) ∧
    (∃ t, exec (.srl r r r) s = .next t ∧ t.reg r = s.reg r >>> ((s.reg r).toNat % 32)) ∧
    (∀ imm : BitVec 12, ∃ t, exec (.addi r r imm) s = .next t ∧ t.reg r = s.reg r + imm.signExtend 32) ∧
    (∀ imm : BitVec 12, accessFault (s.reg r + imm.signExtend 32) = none →
      ∃ t, exec (.lw r r imm) s = .next t ∧
        t.reg r = Memory.readWord s.mem (s.reg r + imm.signExtend 32).toNat) ∧
    (∀ q : Reg, (∃ t, exec (.add r r q) s = .next t ∧ t.reg r = s.reg r + s.reg q) ∧
      (∃ t, exec (.add r q r) s = .next t ∧ t.reg r = s.reg q + s.reg r) ∧
      (∃ t, exec (.and r r q) s = .next t ∧ t.reg r = s.reg r &&& s.reg q) ∧
      (∃ t, exec (.and r q r) s = .next t ∧ t.reg r = s.reg q &&& s.reg r) ∧
      (∃ t, exec (.sll r r q) s = .next t ∧ t.reg r = s.reg r <<< ((s.reg q).toNat % 32)) ∧
      (∃ t, exec (.sll r q r) s = .next t ∧ t.reg r = s.reg q <<< ((s.reg r).toNat % 32)) ∧
      (∃ t, exec (.srl r r q) s = .next t ∧ t.reg r = s.reg r >>> ((s.reg q).toNat % 32)) ∧
      (∃ t, exec (.srl r q r) s = .next t ∧ t.reg r = s.reg q >>> ((s.reg r).toNat % 32)))

/-! ## Arithmetic: each instruction's encoding, its result, and its frame -/

/-- R80. -/
def Obligations.AddRule : Prop :=
  (∀ (w : Word) (rd rs1 rs2 : Reg), decodeWord w = .ok (.add rd rs1 rs2) ↔
    w &&& 0xFE00707F#32 = 0x00000033#32 ∧ rd.val = w.toNat / 2 ^ 7 % 32 ∧ rs1.val = w.toNat / 2 ^ 15 % 32 ∧
      rs2.val = w.toNat / 2 ^ 20 % 32) ∧
  (∀ (s : State) (rd rs1 rs2 : Reg), ∃ t, exec (.add rd rs1 rs2) s = .next t ∧
    OnlyRegister rd (BitVec.ofNat 32 (((s.reg rs1).toNat + (s.reg rs2).toNat) % 2 ^ 32)) s t ∧
    t.pc = s.pc + 4#32 ∧ SameMemory s t ∧ SameOutside s t)

/-- R81. -/
def Obligations.AndRule : Prop :=
  (∀ (w : Word) (rd rs1 rs2 : Reg), decodeWord w = .ok (.and rd rs1 rs2) ↔
    w &&& 0xFE00707F#32 = 0x00007033#32 ∧ rd.val = w.toNat / 2 ^ 7 % 32 ∧ rs1.val = w.toNat / 2 ^ 15 % 32 ∧
      rs2.val = w.toNat / 2 ^ 20 % 32) ∧
  (∀ (s : State) (rd rs1 rs2 : Reg), ∃ t, exec (.and rd rs1 rs2) s = .next t ∧
    OnlyRegister rd (s.reg rs1 &&& s.reg rs2) s t ∧
    t.pc = s.pc + 4#32 ∧ SameMemory s t ∧ SameOutside s t)

/-- R82: the amount is the low five bits of the register, 0 to 31, and the result the low 32 bits of the
product. -/
def Obligations.ShiftLeftRule : Prop :=
  (∀ (w : Word) (rd rs1 rs2 : Reg), decodeWord w = .ok (.sll rd rs1 rs2) ↔
    w &&& 0xFE00707F#32 = 0x00001033#32 ∧ rd.val = w.toNat / 2 ^ 7 % 32 ∧ rs1.val = w.toNat / 2 ^ 15 % 32 ∧
      rs2.val = w.toNat / 2 ^ 20 % 32) ∧
  (∀ (s : State) (rd rs1 rs2 : Reg), ∃ t, exec (.sll rd rs1 rs2) s = .next t ∧
    OnlyRegister rd (BitVec.ofNat 32 ((s.reg rs1).toNat * 2 ^ ((s.reg rs2).toNat % 32) % 2 ^ 32)) s t ∧
    t.pc = s.pc + 4#32 ∧ SameMemory s t ∧ SameOutside s t)

/-- R83: zeros enter at bit 31, so the result is the quotient of the unsigned value. -/
def Obligations.ShiftRightRule : Prop :=
  (∀ (w : Word) (rd rs1 rs2 : Reg), decodeWord w = .ok (.srl rd rs1 rs2) ↔
    w &&& 0xFE00707F#32 = 0x00005033#32 ∧ rd.val = w.toNat / 2 ^ 7 % 32 ∧ rs1.val = w.toNat / 2 ^ 15 % 32 ∧
      rs2.val = w.toNat / 2 ^ 20 % 32) ∧
  (∀ (s : State) (rd rs1 rs2 : Reg), ∃ t, exec (.srl rd rs1 rs2) s = .next t ∧
    OnlyRegister rd (BitVec.ofNat 32 ((s.reg rs1).toNat / 2 ^ ((s.reg rs2).toNat % 32))) s t ∧
    t.pc = s.pc + 4#32 ∧ SameMemory s t ∧ SameOutside s t)

/-- R84: the immediate is sign-extended, then added modulo 2^32. -/
def Obligations.AddImmediateRule : Prop :=
  (∀ (w : Word) (rd rs1 : Reg) (imm : BitVec 12), decodeWord w = .ok (.addi rd rs1 imm) ↔
    w &&& 0x0000707F#32 = 0x00000013#32 ∧ rd.val = w.toNat / 2 ^ 7 % 32 ∧ rs1.val = w.toNat / 2 ^ 15 % 32 ∧
      imm.toNat = w.toNat / 2 ^ 20) ∧
  (∀ (s : State) (rd rs1 : Reg) (imm : BitVec 12), ∃ t, exec (.addi rd rs1 imm) s = .next t ∧
    OnlyRegister rd (BitVec.ofInt 32 ((s.reg rs1).toNat + imm.toInt)) s t ∧
    t.pc = s.pc + 4#32 ∧ SameMemory s t ∧ SameOutside s t)

/-- R101: no arithmetic condition raises anything. -/
def Obligations.ArithmeticCompletesForEveryOperand : Prop :=
  ∀ (s : State) (rd rs1 rs2 : Reg) (imm : BitVec 12),
    (∃ t, exec (.add rd rs1 rs2) s = .next t) ∧ (∃ t, exec (.and rd rs1 rs2) s = .next t) ∧
    (∃ t, exec (.sll rd rs1 rs2) s = .next t) ∧ (∃ t, exec (.srl rd rs1 rs2) s = .next t) ∧
    (∃ t, exec (.addi rd rs1 imm) s = .next t)

/-! ## Memory -/

/-- R32: the byte at the lowest address is the least significant, in what a word write leaves and in what a
word read gives, in every memory: no state switches it. -/
def Obligations.MemoryIsLittleEndian : Prop :=
  (∀ (m : Memory) (a : Nat) (w : Word), ∀ k < 4,
    (Memory.readByte (Memory.writeWord m a w) (a + k)).toNat = w.toNat / 2 ^ (8 * k) % 2 ^ 8) ∧
  (∀ (m : Memory) (a : Nat), ∀ k < 4,
    (Memory.readByte m (a + k)).toNat = (Memory.readWord m a).toNat / 2 ^ (8 * k) % 2 ^ 8)

/-- R34, R35: a word read is the four bytes, a word write changes those four bytes and no other, and a word
read back is the word written. -/
def Obligations.WordReadAfterWordWrite : Prop :=
  ∀ (m : Memory) (a : Nat) (v : Word),
    Memory.readWord (Memory.writeWord m a v) a = v ∧
    (∀ b : Nat, b < a ∨ a + 4 ≤ b → Memory.readByte (Memory.writeWord m a v) b = Memory.readByte m b) ∧
    (Memory.readWord m a).toNat = (Memory.readByte m a).toNat + (Memory.readByte m (a + 1)).toNat * 2 ^ 8 +
      (Memory.readByte m (a + 2)).toNat * 2 ^ 16 + (Memory.readByte m (a + 3)).toNat * 2 ^ 24

/-- R90, R92: an LW whose effective address is a multiple of 4 and at most 0x000FFFFF completes: rd gets the
four bytes there, little endian, and nothing else changes. -/
def Obligations.LoadWordCompletes : Prop :=
  ∀ (s : State) (rd rs1 : Reg) (imm : BitVec 12) (addr : Word), addr = s.reg rs1 + imm.signExtend 32 →
    addr.toNat % 4 = 0 → addr.toNat ≤ 0xFFFFF →
    ∃ t, exec (.lw rd rs1 imm) s = .next t ∧
      OnlyRegister rd (Memory.readByte s.mem (addr.toNat + 3) ++ Memory.readByte s.mem (addr.toNat + 2) ++
        Memory.readByte s.mem (addr.toNat + 1) ++ Memory.readByte s.mem addr.toNat) s t ∧
      t.pc = s.pc + 4#32 ∧ SameMemory s t ∧ SameOutside s t

/-- R91, R92: an SW whose effective address is a multiple of 4 and at most 0x000FFFFF completes: the four
bytes there are those of the source register, little endian, every other byte reads as before, and no register
changes. -/
def Obligations.StoreWordCompletes : Prop :=
  ∀ (s : State) (rs2 rs1 : Reg) (imm : BitVec 12) (addr : Word), addr = s.reg rs1 + imm.signExtend 32 →
    addr.toNat % 4 = 0 → addr.toNat ≤ 0xFFFFF →
    ∃ t, exec (.sw rs2 rs1 imm) s = .next t ∧
      (∀ k < 4, Memory.readByte t.mem (addr.toNat + k) = (s.reg rs2).extractLsb' (8 * k) 8) ∧
      (∀ a : Nat, a < addr.toNat ∨ addr.toNat + 4 ≤ a → Memory.readByte t.mem a = Memory.readByte s.mem a) ∧
      SameRegisters s t ∧ t.pc = s.pc + 4#32 ∧ SameOutside s t

/-- R92, R33, R31: the two checks of LW and SW, misalignment first. That they fault, and their order, are the
spec's decisions D5, D6, D25 (logs 13). -/
def Obligations.BadAddressesFault : Prop :=
  ∀ (s : State) (r rs1 : Reg) (imm : BitVec 12) (addr : Word), addr = s.reg rs1 + imm.signExtend 32 →
    (addr.toNat % 4 ≠ 0 →
      exec (.lw r rs1 imm) s = .fault (.misalignedAccess addr) ∧
      exec (.sw r rs1 imm) s = .fault (.misalignedAccess addr)) ∧
    (addr.toNat % 4 = 0 → 0xFFFFF < addr.toNat →
      exec (.lw r rs1 imm) s = .fault (.addressOutOfRange addr) ∧
      exec (.sw r rs1 imm) s = .fault (.addressOutOfRange addr))

/-- R30, R37: of the ten instructions only SW changes memory, and only the four bytes at its effective
address. -/
def Obligations.OnlyStoresChangeMemory : Prop :=
  ∀ (i : Instr) (s t : State), exec i s = .next t →
    SameMemory s t ∨
    ∃ rs2 rs1 imm, i = .sw rs2 rs1 imm ∧ ∀ a : Nat,
      a < (effectiveAddress rs1 (immS imm) s).toNat ∨ (effectiveAddress rs1 (immS imm) s).toNat + 4 ≤ a →
      Memory.readByte t.mem a = Memory.readByte s.mem a

/-- R40: a load returns the most recent store to its address: right after an SW, an LW of the same effective
address gives the stored register, and an LW of any other aligned address gives what it gave before. The
order of accesses is the spec's decision D18. -/
def Obligations.LoadSeesLatestStore : Prop :=
  ∀ (s t : State) (rs2 rs1 rd base : Reg) (imm off : BitVec 12), exec (.sw rs2 rs1 imm) s = .next t → rd ≠ 0 →
    accessFault (s.reg base + off.signExtend 32) = none →
    ∃ u v, exec (.lw rd base off) t = .next u ∧ exec (.lw rd base off) s = .next v ∧
      u.reg rd = if s.reg base + off.signExtend 32 = s.reg rs1 + imm.signExtend 32 then s.reg rs2 else v.reg rd

/-- R42: a store into the instruction stream is what the next step fetches. The spec's decision D19. -/
def Obligations.FetchSeesEarlierStore : Prop :=
  ∀ (s t : State) (rs2 rs1 : Reg) (imm : BitVec 12) (i : Instr), s.canFetch → fetch s = .ok (.sw rs2 rs1 imm) →
    step s = .next t → s.reg rs1 + imm.signExtend 32 = s.pc + 4#32 → s.reg rs2 = encode i →
    i.wellFormed = true → fetch t = .ok i

/-! ## Control transfer -/

/-- R95: the three cases of BNE. The misaligned target's fault, raised only when the branch is taken, is the
spec's decision D8. -/
def Obligations.BranchNotEqualRule : Prop :=
  ∀ (s : State) (rs1 rs2 : Reg) (imm : BitVec 13),
    (s.reg rs1 = s.reg rs2 → ∃ t, exec (.bne rs1 rs2 imm) s = .next t ∧ t.pc = s.pc + 4#32 ∧
      SameRegisters s t ∧ SameMemory s t ∧ SameOutside s t) ∧
    (s.reg rs1 ≠ s.reg rs2 → (s.pc + imm.signExtend 32).toNat % 4 = 0 →
      ∃ t, exec (.bne rs1 rs2 imm) s = .next t ∧ t.pc = s.pc + imm.signExtend 32 ∧
        SameRegisters s t ∧ SameMemory s t ∧ SameOutside s t) ∧
    (s.reg rs1 ≠ s.reg rs2 → (s.pc + imm.signExtend 32).toNat % 4 ≠ 0 →
      exec (.bne rs1 rs2 imm) s = .fault (.misalignedBranchTarget s.pc (s.pc + imm.signExtend 32)))

/-- R96: every instruction that completes, other than a taken BNE, sets pc to pc + 4; one that stalls or
faults does not change pc. -/
def Obligations.SequentialFlow : Prop :=
  (∀ (i : Instr) (s t : State), exec i s = .next t →
    (Stalls i s ∧ t.pc = s.pc) ∨ (¬ Stalls i s ∧ t.pc = s.pc + 4#32) ∨
    (∃ rs1 rs2 imm, i = .bne rs1 rs2 imm ∧ s.reg rs1 ≠ s.reg rs2 ∧ t.pc = s.pc + imm.signExtend 32)) ∧
  (∀ (s : State) (rs1 rs2 : Reg) (imm : BitVec 13), s.reg rs1 = s.reg rs2 →
    ∃ t, exec (.bne rs1 rs2 imm) s = .next t ∧ t.pc = s.pc + 4#32) ∧
  (∀ (s : State) (f : Fault), step s = .fault f → s.afterStep.pc = s.pc)

/-! ## Control/status registers -/

/-- R70, R72, R15: with a word in m2p, a CSRR from 0xFC0 takes the oldest one into rd and changes nothing
else. That rd = x0 still takes it is the spec's decision D12. -/
def Obligations.ReadFromManagerDequeues : Prop :=
  ∀ (s : State) (rd : Reg) (v : Word) (rest : List Word), s.m2p = v :: rest →
    ∃ t, exec (.csrr rd 0xFC0#12) s = .next t ∧ OnlyRegister rd v s t ∧ t.pc = s.pc + 4#32 ∧
      t.m2p = rest ∧ SameMemory s t ∧ SameOutside { s with m2p := rest } t

/-- R71, R73, R16: with p2m ready, a CSRW to 0x7C0 appends the register's word at the tail of p2m and changes
nothing else. -/
def Obligations.WriteToManagerEnqueues : Prop :=
  ∀ (s : State) (rs1 : Reg), s.p2mReady = true →
    ∃ t, exec (.csrw 0x7C0#12 rs1) s = .next t ∧ t.p2m = s.p2m ++ [s.reg rs1] ∧ t.pc = s.pc + 4#32 ∧
      SameRegisters s t ∧ SameMemory s t ∧ SameOutside { s with p2m := s.p2m ++ [s.reg rs1] } t

/-- R113, R17, R72, R73: an accelerator read or write that does not stall completes. A read gives rd a value
the spec leaves free (Config.xcelRead, log 6; nothing is known of it), a write changes no register, and either
reaches nothing but the accelerator's own state. -/
def Obligations.AcceleratorAccessCompletes : Prop :=
  ∀ (s : State) (r : Reg) (k : XcelReg) (csr : CsrNumber), csr.toNat = 0x7E0 + k.val →
    (k ∉ s.xcelReadStalls → ∃ t, exec (.csrr r csr) s = .next t ∧
      OnlyRegister r (Config.xcelRead s.clock s.xcelHistory k) s t ∧ t.pc = s.pc + 4#32 ∧ SameMemory s t ∧
      SameOutside { s with xcelHistory := s.xcelHistory ++ [.read k] } t) ∧
    (k ∉ s.xcelWriteStalls → ∃ t, exec (.csrw csr r) s = .next t ∧ SameRegisters s t ∧ t.pc = s.pc + 4#32 ∧
      SameMemory s t ∧ SameOutside { s with xcelHistory := s.xcelHistory ++ [.write k (s.reg r)] } t)

/-- R72, R73, R18, R103: the CSR faults, whatever the FIFOs and the accelerator are doing. The spec's decisions
D9, D10, D25 (log 15). -/
def Obligations.CsrNumberFaults : Prop :=
  ∀ (s : State) (r : Reg),
    exec (.csrr r 0x7C0#12) s = .fault (.undefinedCSRAccess 0x7C0#12 .read) ∧
    exec (.csrw 0xFC0#12 r) s = .fault (.undefinedCSRAccess 0xFC0#12 .write) ∧
    ∀ n : CsrNumber, ¬ isCsrNumber n →
      exec (.csrr r n) s = .fault (.unsupportedCSR n) ∧ exec (.csrw n r) s = .fault (.unsupportedCSR n)

/-- R74: an instruction that stalls changes nothing, the step leaves the environment alone to move, and the
same instruction is attempted again. That the stall is invisible is the spec's decision D17. -/
def Obligations.StallChangesNothingAndRetries : Prop :=
  ∀ (i : Instr) (s : State), Stalls i s →
    exec i s = .next s ∧
    (s.canFetch → fetch s = .ok i →
      step s = .next s.environmentTurn ∧ s.environmentTurn.canFetch ∧ fetch s.environmentTurn = .ok i)

/-- R21, R111, R112, over any number of steps: every word the processor has written stays in p2m, in order;
the words of m2p are read in the order delivered, each once. How many arrive at each step is the environment's
(log 5). -/
def Obligations.FifosKeepOrderAlongEveryRun : Prop :=
  ∀ (k : Nat) (s t : State), steps k s = .next t →
    (∃ written : List Word, written.length ≤ k ∧ t.p2m = s.p2m ++ written) ∧
    (∃ taken : List Word, taken.length ≤ k ∧
      s.m2p ++ ((s.env.take k).flatMap EnvMove.deliver) = taken ++ t.m2p)

/-- R16, R21: p2m changes only by a CSRW to 0x7C0, which appends its register; m2p changes only by a CSRR from
0xFC0, which takes its head. -/
def Obligations.FifosChangeOnlyThroughTheirCsr : Prop :=
  ∀ (i : Instr) (s t : State), exec i s = .next t →
    (t.p2m ≠ s.p2m → ∃ rs1, i = .csrw 0x7C0#12 rs1 ∧ s.p2mReady = true ∧ t.p2m = s.p2m ++ [s.reg rs1]) ∧
    (t.m2p ≠ s.m2p → ∃ rd v, i = .csrr rd 0xFC0#12 ∧ s.m2p = v :: t.m2p)

/-! ## The machine -/

/-- R7: where the word at pc stands for a well-formed instruction, the step is that instruction's execution,
followed, when it completes or stalls, by the environment's turn (the model's own, log 5). -/
def Obligations.StepRunsTheFetchedInstruction : Prop :=
  ∀ (s : State) (i : Instr), s.canFetch → decodeWord (Memory.readWord s.mem s.pc.toNat) = .ok i →
    (∀ t, exec i s = .next t → step s = .next t.environmentTurn) ∧
    (∀ f, exec i s = .fault f → step s = .fault f)

/-- The model's own (log 5), from R40 and R113: the environment's turn adds the delivered words at the tail of
m2p, sets readiness and stalls, and reaches no register, no pc, no memory, no written word and no fault record. -/
def Obligations.EnvironmentTurnReachesOnlyItsOwn : Prop :=
  ∀ s : State,
    (s.environmentTurn.regs = s.regs ∧ s.environmentTurn.pc = s.pc ∧ s.environmentTurn.mem = s.mem ∧
      s.environmentTurn.p2m = s.p2m ∧ s.environmentTurn.xcelHistory = s.xcelHistory ∧
      s.environmentTurn.status = s.status) ∧
    (∀ m rest, s.env = m :: rest →
      s.environmentTurn.m2p = s.m2p ++ m.deliver ∧ s.environmentTurn.p2mReady = m.p2mReady ∧
      s.environmentTurn.xcelReadStalls = m.readStalls ∧ s.environmentTurn.xcelWriteStalls = m.writeStalls ∧
      s.environmentTurn.env = rest) ∧
    (s.env = [] → s.environmentTurn.m2p = s.m2p ∧ s.environmentTurn.p2mReady = s.p2mReady ∧
      s.environmentTurn.xcelReadStalls = s.xcelReadStalls ∧
      s.environmentTurn.xcelWriteStalls = s.xcelWriteStalls ∧ s.environmentTurn.env = [])

/-- R36 and log 10: a word placed by withFetchWord is what the next step fetches, and only its four bytes of
memory change. -/
def Obligations.PlacedWordIsFetched : Prop :=
  ∀ (s : State) (w : Nat) (i : Instr), s.canFetch → decodeTableWord 32 w = some i →
    fetch (s.withFetchWord 32 w) = .ok i ∧ SameRegisters s (s.withFetchWord 32 w) ∧
    (s.withFetchWord 32 w).pc = s.pc ∧ SameOutside s (s.withFetchWord 32 w) ∧
    ∀ a : Nat, a < s.pc.toNat ∨ s.pc.toNat + 4 ≤ a →
      Memory.readByte (s.withFetchWord 32 w).mem a = Memory.readByte s.mem a

/-- R58: a word that matches none of the ten rows is an illegal instruction, and executing it faults with the
pc and the word. That it faults is the spec's decision D3 (log 12). -/
def Obligations.IllegalWordsFault : Prop :=
  ∀ (s : State) (w : Word), s.canFetch → Memory.readWord s.mem s.pc.toNat = w →
    w &&& 0x000FF07F#32 ≠ 0x00002073#32 → w &&& 0x00007FFF#32 ≠ 0x00001073#32 →
    w &&& 0xFE00707F#32 ≠ 0x00000033#32 → w &&& 0xFE00707F#32 ≠ 0x00007033#32 →
    w &&& 0xFE00707F#32 ≠ 0x00001033#32 → w &&& 0xFE00707F#32 ≠ 0x00005033#32 →
    w &&& 0x0000707F#32 ≠ 0x00000013#32 → w &&& 0x0000707F#32 ≠ 0x00002003#32 →
    w &&& 0x0000707F#32 ≠ 0x00002023#32 → w &&& 0x0000707F#32 ≠ 0x00001063#32 →
    step s = .fault (.illegalInstruction s.pc w)

/-- R100, R103: for a machine that is not Faulted, every fault a step can end in, with the exact condition of
each and the order of the checks: the machine faults in these cases and in no other. The faults are the
spec's decisions D2 to D10 and their order D25. -/
def Obligations.FaultsAreExactlyThese : Prop :=
  ∀ (s : State) (f : Fault), s.status = .running →
    (step s = .fault f ↔
      (s.pc.toNat % 4 ≠ 0 ∧ f = .misalignedFetch s.pc) ∨
      (s.pc.toNat % 4 = 0 ∧ 0xFFFFF < s.pc.toNat ∧ f = .fetchOutOfRange s.pc) ∨
      (s.pc.toNat % 4 = 0 ∧ s.pc.toNat ≤ 0xFFFFF ∧
        let inst := Memory.readWord s.mem s.pc.toNat
        (((∀ i, decodeWord inst ≠ .ok i) ∧ f = .illegalInstruction s.pc inst) ∨
         (∃ r rs1 imm, (decodeWord inst = .ok (.lw r rs1 imm) ∨ decodeWord inst = .ok (.sw r rs1 imm)) ∧
            (s.reg rs1 + imm.signExtend 32).toNat % 4 ≠ 0 ∧
            f = .misalignedAccess (s.reg rs1 + imm.signExtend 32)) ∨
         (∃ r rs1 imm, (decodeWord inst = .ok (.lw r rs1 imm) ∨ decodeWord inst = .ok (.sw r rs1 imm)) ∧
            (s.reg rs1 + imm.signExtend 32).toNat % 4 = 0 ∧
            0xFFFFF < (s.reg rs1 + imm.signExtend 32).toNat ∧
            f = .addressOutOfRange (s.reg rs1 + imm.signExtend 32)) ∨
         (∃ rs1 rs2 imm, decodeWord inst = .ok (.bne rs1 rs2 imm) ∧ s.reg rs1 ≠ s.reg rs2 ∧
            (s.pc + imm.signExtend 32).toNat % 4 ≠ 0 ∧
            f = .misalignedBranchTarget s.pc (s.pc + imm.signExtend 32)) ∨
         (∃ r n, (decodeWord inst = .ok (.csrr r n) ∨ decodeWord inst = .ok (.csrw n r)) ∧
            ¬ isCsrNumber n ∧ f = .unsupportedCSR n) ∨
         (∃ r, decodeWord inst = .ok (.csrr r 0x7C0#12) ∧ f = .undefinedCSRAccess 0x7C0#12 .read) ∨
         (∃ r, decodeWord inst = .ok (.csrw 0xFC0#12 r) ∧ f = .undefinedCSRAccess 0xFC0#12 .write))))

/-- R8, R26, R104: a fault leaves every part of the state as it was before the instruction but the fault
record, and a Faulted machine takes no further step. The spec's decision D21. -/
def Obligations.FaultIsPreciseAndTerminal : Prop :=
  (∀ (s : State) (f : Fault), step s = .fault f →
    s.afterStep = { s with status := .faulted f } ∧ step s.afterStep = .fault f ∧
    s.afterStep.afterStep = s.afterStep) ∧
  (∀ (s : State) (f : Fault), s.status = .faulted f → step s = .fault f ∧ s.afterStep = s)

/-- R7, R2: a step ends in a next state or a fault; no instruction of TinyRV0 is refused. -/
def Obligations.EveryStepGoesOnOrFaults : Prop :=
  ∀ s : State, (∃ t, step s = .next t) ∨ (∃ f, step s = .fault f)

/-- Memory in canonical form, an aligned pc and no fault record: every step keeps them (R13, R20, R30, R26). -/
def Obligations.EveryStepKeepsTheInvariant : Prop :=
  ∀ s t : State, s.Inv → step s = .next t → t.Inv

/-- The invariant holds at reset and at the start of every run, whatever the open parameters are (R25). -/
def Obligations.RunsStartInTheInvariant : Prop :=
  State.reset.Inv ∧ ∀ p : BootParams, (State.boot p).Inv

/-- R102, R6: two machines with the same registers, pc, memory and fault record take the same step, as far as
those go, whatever their FIFOs, accelerator and environment are doing, unless the instruction is a CSRR or a
CSRW: the manager and the accelerator reach the processor only through those two. The spec's decision D20. -/
def Obligations.EnvironmentIsSeenOnlyThroughCsrs : Prop :=
  ∀ s u : State, s.regs = u.regs → s.pc = u.pc → s.mem = u.mem → s.status = u.status →
    (∀ i, fetch s = .ok i → usesCsr i = false) →
    (∀ t, step s = .next t →
      ∃ v, step u = .next v ∧ t.regs = v.regs ∧ t.pc = v.pc ∧ t.mem = v.mem ∧ t.status = v.status) ∧
    (∀ f, step s = .fault f → step u = .fault f)

/-- R120, R25: at reset, whatever the open parameters are, pc is 0x00000200, no fault is recorded (the model's
bookkeeping, log 24), p2m is empty, and the instruction first fetched is the word at 0x200 to 0x203, least
significant byte first (the spec's decision D2, log 11). -/
def Obligations.ResetStartsAtTheResetVector : Prop :=
  State.reset.pc = 0x00000200#32 ∧
  ∀ p : BootParams, (State.boot p).pc = 0x00000200#32 ∧ (State.boot p).status = .running ∧
    (State.boot p).p2m = [] ∧
    ∀ i : Instr, decodeWord (Memory.readByte (State.boot p).mem 0x203 ++ Memory.readByte (State.boot p).mem 0x202 ++
      Memory.readByte (State.boot p).mem 0x201 ++ Memory.readByte (State.boot p).mem 0x200) = .ok i →
      fetch (State.boot p) = .ok i

/-- R122, R25, D15: at the start of a run each word of the image reads as the image says (of two entries for one
word the later holds), and a byte the image does not define reads as the free value (log 2). -/
def Obligations.BootLoadsTheImage : Prop :=
  ∀ p : BootParams,
    (∀ (before after : List (WordIndex × Word)) (i : WordIndex) (w : Word),
      p.initMem = before ++ (i, w) :: after → (∀ e ∈ after, e.1 ≠ i) →
      Memory.readWord (State.boot p).mem (4 * i.val) = w) ∧
    (∀ a : Nat, (∀ e ∈ p.initMem, a / 4 ≠ e.1.val) →
      Memory.readByte (State.boot p).mem a = Config.initMem a) ∧
    (∀ r : Reg, (State.boot p).reg r = readCell p.initRegs r)

/-- R127, R8: a run that ends, ends in a state that is not Faulted and where the end condition holds, reached by
steps none of which started where it held; and a longer run ends there too. What ends a run is the claim's own
parameter (D22). -/
def Obligations.RunEndsWhereTheConditionFirstHolds : Prop :=
  ∀ (e : EndOfRun) (n : Nat) (s t : State), runUntil e n s = .ended t →
    t.status = .running ∧ e.holds t = true ∧ (∀ m, n ≤ m → runUntil e m s = .ended t) ∧
    ∃ k ≤ n, steps k s = .next t ∧ ∀ j < k, ∀ u, steps j s = .next u → e.holds u = false

/-- R8: a Faulted machine's run has faulted, even where its pc is the address or its p2m has the words that end a
run (R127); a run whose next step faults is that Faulted state; and no number of steps ends a run that faulted.
The spec's decisions D21, D22 (logs 20, 24). -/
def Obligations.FaultedRunIsNoSuccessfulEnd : Prop :=
  ∀ (e : EndOfRun) (s : State),
    (∀ n f, s.status = .faulted f → runUntil e n s = .faulted s) ∧
    (∀ n f, s.status = .running → e.holds s = false → step s = .fault f →
      runUntil e (n + 1) s = .faulted { s with status := .faulted f }) ∧
    (∀ n t, runUntil e n s = .faulted t →
      (∃ f, t.status = .faulted f) ∧ ∀ m u, runUntil e m s ≠ .ended u)
end

