-- ==== Sys2Proof/Laws/Decode.lean ====
section
/-! SUPPORT. The laws of the opcode map and of the instruction formats (spec/30_encoding.md R51 to R57) and of
the CSR numbers (spec/10_state.md R14). -/

namespace Sys2Proof

/-! ### The opcode map -/

/-- Two rows that disagree on a bit both of them fix cover no word together. -/
theorem Row.not_both {r q : Row} (h : r.pattern &&& q.mask ≠ q.pattern &&& r.mask) (w : Word) :
    ¬(r.covers w = true ∧ q.covers w = true) := by
  rintro ⟨hr, hq⟩
  simp only [Row.covers, beq_iff_eq] at hr hq
  apply h
  rw [← hr, ← hq]
  simp only [BitVec.and_assoc, BitVec.and_comm r.mask]

/-- R57: every two rows of the map disagree on such a bit. -/
theorem opcodeTable_disagree :
    opcodeTable.Pairwise (fun r q => r.pattern &&& q.mask ≠ q.pattern &&& r.mask) := by decide

/-- The decoder's row covers the word. -/
theorem decodeOp_some {w : Word} {op : Op} (h : decodeOp w = some op) :
    ∃ r ∈ opcodeTable, r.op = op ∧ r.covers w = true := by
  unfold decodeOp at h
  obtain ⟨r, hr, rfl⟩ := Option.map_eq_some_iff.1 h
  exact ⟨r, List.mem_of_find?_eq_some hr, rfl, by simpa using List.find?_some hr⟩

/-- A word that the decoder gives no row is covered by none. -/
theorem decodeOp_none {w : Word} (h : decodeOp w = none) : ∀ r ∈ opcodeTable, r.covers w = false := by
  simpa [decodeOp] using h

/-- In a list whose entries cover no word together, the first that covers a word is the only one. -/
theorem find?_covers {l : List Row} (hl : l.Pairwise (fun r q => r.pattern &&& q.mask ≠ q.pattern &&& r.mask))
    {r : Row} (hr : r ∈ l) {w : Word} (hw : r.covers w = true) : l.find? (fun r => r.covers w) = some r := by
  induction l with
  | nil => simp at hr
  | cons q l ih =>
    rw [List.pairwise_cons] at hl
    rcases List.mem_cons.1 hr with rfl | hr
    · simp [hw]
    · have hq : q.covers w = false := by
        by_contra hc
        exact Row.not_both (hl.1 r hr) w ⟨by simpa using hc, hw⟩
      rw [List.find?_cons_of_neg (by simp [hq])]
      exact ih hl.2 hr

/-- A word covered by a row decodes to that row's instruction. -/
theorem decodeWord_of_covers {r : Row} (hr : r ∈ opcodeTable) {w : Word} (hw : r.covers w = true) :
    decodeWord w = .ok (operandsOf w r.op) := by
  simp [decodeWord, decodeOp, find?_covers opcodeTable_disagree hr hw]

/-! ### Fields of the formats -/

@[simp] theorem toFin_regBits (r : Reg) : (regBits r).toFin = r := rfl

section
variable (funct7 : BitVec 7) (rs2 rs1 rd : Reg) (funct3 : BitVec 3) (opcode : BitVec 7)

@[simp] theorem fieldRd_encodeR : fieldRd (encodeR funct7 rs2 rs1 funct3 rd opcode) = rd := by
  rw [fieldRd, show (encodeR funct7 rs2 rs1 funct3 rd opcode).extractLsb' 7 5 = regBits rd by
    ext j hj
    simp only [encodeR, BitVec.getElem_extractLsb', BitVec.getLsbD_append]
    interval_cases j <;> simp, toFin_regBits]

@[simp] theorem fieldRs1_encodeR : fieldRs1 (encodeR funct7 rs2 rs1 funct3 rd opcode) = rs1 := by
  rw [fieldRs1, show (encodeR funct7 rs2 rs1 funct3 rd opcode).extractLsb' 15 5 = regBits rs1 by
    ext j hj
    simp only [encodeR, BitVec.getElem_extractLsb', BitVec.getLsbD_append]
    interval_cases j <;> simp, toFin_regBits]

@[simp] theorem fieldRs2_encodeR : fieldRs2 (encodeR funct7 rs2 rs1 funct3 rd opcode) = rs2 := by
  rw [fieldRs2, show (encodeR funct7 rs2 rs1 funct3 rd opcode).extractLsb' 20 5 = regBits rs2 by
    ext j hj
    simp only [encodeR, BitVec.getElem_extractLsb', BitVec.getLsbD_append]
    interval_cases j <;> simp, toFin_regBits]

@[simp] theorem fieldRd_encodeI (imm : BitVec 12) : fieldRd (encodeI imm rs1 funct3 rd opcode) = rd := by
  rw [fieldRd, show (encodeI imm rs1 funct3 rd opcode).extractLsb' 7 5 = regBits rd by
    ext j hj
    simp only [encodeI, BitVec.getElem_extractLsb', BitVec.getLsbD_append]
    interval_cases j <;> simp, toFin_regBits]

@[simp] theorem fieldRs1_encodeI (imm : BitVec 12) : fieldRs1 (encodeI imm rs1 funct3 rd opcode) = rs1 := by
  rw [fieldRs1, show (encodeI imm rs1 funct3 rd opcode).extractLsb' 15 5 = regBits rs1 by
    ext j hj
    simp only [encodeI, BitVec.getElem_extractLsb', BitVec.getLsbD_append]
    interval_cases j <;> simp, toFin_regBits]

@[simp] theorem fieldRs1_encodeS (hi : BitVec 7) (lo : BitVec 5) :
    fieldRs1 (encodeS hi rs2 rs1 funct3 lo opcode) = rs1 := by
  rw [fieldRs1, show (encodeS hi rs2 rs1 funct3 lo opcode).extractLsb' 15 5 = regBits rs1 by
    ext j hj
    simp only [encodeS, BitVec.getElem_extractLsb', BitVec.getLsbD_append]
    interval_cases j <;> simp, toFin_regBits]

@[simp] theorem fieldRs2_encodeS (hi : BitVec 7) (lo : BitVec 5) :
    fieldRs2 (encodeS hi rs2 rs1 funct3 lo opcode) = rs2 := by
  rw [fieldRs2, show (encodeS hi rs2 rs1 funct3 lo opcode).extractLsb' 20 5 = regBits rs2 by
    ext j hj
    simp only [encodeS, BitVec.getElem_extractLsb', BitVec.getLsbD_append]
    interval_cases j <;> simp, toFin_regBits]

end

end Sys2Proof
end

