-- ==== Sys2Proof/Laws/Memory.lean ====
section
/-! SUPPORT. The laws of memory: read after write, the frame of a write, and the canonical form
(spec/20_memory.md R32, R34, R35, R44). -/

namespace Sys2Proof.Machine

theorem Memory.find?_writeByte (m : Memory) (a a' : Nat) (b : Byte) :
    Memory.find? (Memory.writeByte m a b) a' = if a' = a then some b else Memory.find? m a' := by
  induction m with
  | nil => simp [Memory.writeByte, Memory.find?]
  | cons c m ih =>
    obtain ⟨c, x⟩ := c
    by_cases h : a' = a
    · subst h
      by_cases h1 : a' < c
      · simp [Memory.writeByte, h1, Memory.find?]
      · by_cases h2 : a' = c <;> simp [Memory.writeByte, h1, h2, Memory.find?, ih]
    · by_cases h1 : a < c
      · simp [Memory.writeByte, h1, Memory.find?, h]
      · by_cases h2 : a = c
        · subst h2; simp [Memory.writeByte, Memory.find?, h]
        · simp [Memory.writeByte, h1, h2, Memory.find?, ih, h]

theorem Memory.readByte_writeByte (m : Memory) (a a' : Nat) (b : Byte) :
    Memory.readByte (Memory.writeByte m a b) a' = if a' = a then b else Memory.readByte m a' := by
  unfold Memory.readByte
  rw [Memory.find?_writeByte]
  split <;> rfl

/-- Every byte after a word is written: the four stored bytes, and no other (R35). -/
theorem Memory.readByte_writeWord (m : Memory) (a a' : Nat) (v : Word) :
    Memory.readByte (Memory.writeWord m a v) a' =
      if a' = a then byteOf v 0 else if a' = a + 1 then byteOf v 1
      else if a' = a + 2 then byteOf v 2 else if a' = a + 3 then byteOf v 3
      else Memory.readByte m a' := by
  simp only [Memory.writeWord, Memory.readByte_writeByte]
  grind

/-- The frame of `MemWrite` (R35: it changes no other byte). -/
theorem Memory.readByte_writeWord_outside (m : Memory) (a a' : Nat) (v : Word)
    (h : a' < a ∨ a + 4 ≤ a') : Memory.readByte (Memory.writeWord m a v) a' = Memory.readByte m a' := by
  rw [Memory.readByte_writeWord, if_neg (by omega), if_neg (by omega), if_neg (by omega), if_neg (by omega)]

/-- R32: the bytes of a word make the word. -/
@[simp] theorem wordOfBytes_byteOf (w : Word) :
    wordOfBytes (byteOf w 0) (byteOf w 1) (byteOf w 2) (byteOf w 3) = w := by
  refine BitVec.eq_of_getLsbD_eq fun j hj => ?_
  simp only [wordOfBytes, byteOf, BitVec.getLsbD_append, BitVec.getLsbD_extractLsb']
  split
  · simp [*]
  · split
    · simp [*, show 8 + (j - 8) = j by omega]
    · split
      · simp [*, show 16 + (j - 8 - 8) = j by omega]
      · simp [show 24 + (j - 8 - 8 - 8) = j by omega, show j - 8 - 8 - 8 < 8 by omega]

/-- R35: a word read back is the word written. -/
theorem Memory.readWord_writeWord (m : Memory) (a : Nat) (v : Word) :
    Memory.readWord (Memory.writeWord m a v) a = v := by
  simp [Memory.readWord, Memory.readByte_writeWord]

/-- Words that do not overlap do not meet. -/
theorem Memory.readWord_writeWord_outside (m : Memory) (a a' : Nat) (v : Word)
    (h : a' + 4 ≤ a ∨ a + 4 ≤ a') : Memory.readWord (Memory.writeWord m a v) a' = Memory.readWord m a' := by
  unfold Memory.readWord
  rw [Memory.readByte_writeWord_outside _ _ _ _ (by omega), Memory.readByte_writeWord_outside _ _ _ _ (by omega),
    Memory.readByte_writeWord_outside _ _ _ _ (by omega), Memory.readByte_writeWord_outside _ _ _ _ (by omega)]

/-! ### The canonical form -/

theorem Memory.mem_writeByte {m : Memory} {a : Nat} {b : Byte} {c : Host.Cell}
    (h : c ∈ Memory.writeByte m a b) : c = (a, b) ∨ c ∈ m := by
  induction m with
  | nil => simpa [Memory.writeByte] using h
  | cons d m ih =>
    obtain ⟨d, x⟩ := d
    unfold Memory.writeByte at h
    split at h
    · simpa using h
    · split at h <;> simp only [List.mem_cons] at h ⊢
      · tauto
      · have := @ih; tauto

theorem Memory.wf_nil : Memory.wf [] := by simp [Memory.wf]

theorem Memory.wf_writeByte {m : Memory} {a : Nat} {b : Byte} (h : Memory.wf m) (ha : a < Config.memBytes) :
    Memory.wf (Memory.writeByte m a b) := by
  refine ⟨?_, fun c hc => ?_⟩
  · obtain ⟨h, -⟩ := h
    induction m with
    | nil => simp [Memory.writeByte]
    | cons d m ih =>
      obtain ⟨d, x⟩ := d
      rw [List.pairwise_cons] at h
      unfold Memory.writeByte
      split
      · rw [List.pairwise_cons]
        refine ⟨fun c hc => ?_, List.pairwise_cons.2 h⟩
        rcases List.mem_cons.1 hc with rfl | hc
        · assumption
        · exact lt_trans ‹a < d› (h.1 c hc)
      · split
        · subst_vars
          exact List.pairwise_cons.2 ⟨h.1, h.2⟩
        · refine List.pairwise_cons.2 ⟨fun c hc => ?_, ih h.2⟩
          rcases Memory.mem_writeByte hc with rfl | hc
          · dsimp only; omega
          · exact h.1 c hc
  · rcases Memory.mem_writeByte hc with rfl | hc
    · exact ha
    · exact h.2 c hc

/-- Every write of a word in memory keeps the canonical form. -/
theorem Memory.wf_writeWord {m : Memory} {a : Nat} {v : Word} (h : Memory.wf m) (ha : a + 3 < Config.memBytes) :
    Memory.wf (Memory.writeWord m a v) := by
  unfold Memory.writeWord
  exact Memory.wf_writeByte (Memory.wf_writeByte (Memory.wf_writeByte (Memory.wf_writeByte h (by omega))
    (by omega)) (by omega)) (by omega)

/-- The loader's image is in canonical form. -/
theorem Memory.wf_load (image : List (WordIndex × Word)) : Memory.wf (Memory.load image) := by
  suffices ∀ m, Memory.wf m →
      Memory.wf (image.foldl (fun m e => Memory.writeWord m (4 * e.1.val) e.2) m) from this [] Memory.wf_nil
  induction image with
  | nil => exact fun m hm => hm
  | cons e image ih =>
    refine fun m hm => ih _ (Memory.wf_writeWord hm ?_)
    have := e.1.isLt
    simp only [Config.memBytes]
    omega

/-- The reset memory is in canonical form. -/
theorem reset_mem_wf : Memory.wf State.reset.mem := Memory.wf_nil

end Sys2Proof.Machine
end

