-- ==== Sys2Proof/Laws/State.lean ====
section
/-! SUPPORT. One lemma per field of State per named update, each true by rfl, and the laws of the general
registers (spec/10_state.md R10, R11). -/

namespace Sys2Proof.Machine

variable (s : State)

/-! ### setReg -/

@[simp] theorem State.setReg_regs (r : Reg) (v : Word) : (s.setReg r v).regs = writeCell s.regs r v := rfl
@[simp] theorem State.setReg_pc (r : Reg) (v : Word) : (s.setReg r v).pc = s.pc := rfl
@[simp] theorem State.setReg_mem (r : Reg) (v : Word) : (s.setReg r v).mem = s.mem := rfl
@[simp] theorem State.setReg_m2p (r : Reg) (v : Word) : (s.setReg r v).m2p = s.m2p := rfl
@[simp] theorem State.setReg_p2m (r : Reg) (v : Word) : (s.setReg r v).p2m = s.p2m := rfl
@[simp] theorem State.setReg_p2mReady (r : Reg) (v : Word) : (s.setReg r v).p2mReady = s.p2mReady := rfl
@[simp] theorem State.setReg_xcelHistory (r : Reg) (v : Word) : (s.setReg r v).xcelHistory = s.xcelHistory := rfl
@[simp] theorem State.setReg_xcelReadStalls (r : Reg) (v : Word) : (s.setReg r v).xcelReadStalls = s.xcelReadStalls := rfl
@[simp] theorem State.setReg_xcelWriteStalls (r : Reg) (v : Word) : (s.setReg r v).xcelWriteStalls = s.xcelWriteStalls := rfl
@[simp] theorem State.setReg_env (r : Reg) (v : Word) : (s.setReg r v).env = s.env := rfl
@[simp] theorem State.setReg_clock (r : Reg) (v : Word) : (s.setReg r v).clock = s.clock := rfl
@[simp] theorem State.setReg_status (r : Reg) (v : Word) : (s.setReg r v).status = s.status := rfl

/-! ### setPc -/

@[simp] theorem State.setPc_regs (a : Word) : (s.setPc a).regs = s.regs := rfl
@[simp] theorem State.setPc_pc (a : Word) : (s.setPc a).pc = a := rfl
@[simp] theorem State.setPc_mem (a : Word) : (s.setPc a).mem = s.mem := rfl
@[simp] theorem State.setPc_m2p (a : Word) : (s.setPc a).m2p = s.m2p := rfl
@[simp] theorem State.setPc_p2m (a : Word) : (s.setPc a).p2m = s.p2m := rfl
@[simp] theorem State.setPc_p2mReady (a : Word) : (s.setPc a).p2mReady = s.p2mReady := rfl
@[simp] theorem State.setPc_xcelHistory (a : Word) : (s.setPc a).xcelHistory = s.xcelHistory := rfl
@[simp] theorem State.setPc_xcelReadStalls (a : Word) : (s.setPc a).xcelReadStalls = s.xcelReadStalls := rfl
@[simp] theorem State.setPc_xcelWriteStalls (a : Word) : (s.setPc a).xcelWriteStalls = s.xcelWriteStalls := rfl
@[simp] theorem State.setPc_env (a : Word) : (s.setPc a).env = s.env := rfl
@[simp] theorem State.setPc_clock (a : Word) : (s.setPc a).clock = s.clock := rfl
@[simp] theorem State.setPc_status (a : Word) : (s.setPc a).status = s.status := rfl
@[simp] theorem State.setPc_reg (a : Word) (q : Reg) : (s.setPc a).reg q = s.reg q := rfl

/-! ### setMem -/

@[simp] theorem State.setMem_regs (m : Memory) : (s.setMem m).regs = s.regs := rfl
@[simp] theorem State.setMem_pc (m : Memory) : (s.setMem m).pc = s.pc := rfl
@[simp] theorem State.setMem_mem (m : Memory) : (s.setMem m).mem = m := rfl
@[simp] theorem State.setMem_m2p (m : Memory) : (s.setMem m).m2p = s.m2p := rfl
@[simp] theorem State.setMem_p2m (m : Memory) : (s.setMem m).p2m = s.p2m := rfl
@[simp] theorem State.setMem_p2mReady (m : Memory) : (s.setMem m).p2mReady = s.p2mReady := rfl
@[simp] theorem State.setMem_xcelHistory (m : Memory) : (s.setMem m).xcelHistory = s.xcelHistory := rfl
@[simp] theorem State.setMem_xcelReadStalls (m : Memory) : (s.setMem m).xcelReadStalls = s.xcelReadStalls := rfl
@[simp] theorem State.setMem_xcelWriteStalls (m : Memory) : (s.setMem m).xcelWriteStalls = s.xcelWriteStalls := rfl
@[simp] theorem State.setMem_env (m : Memory) : (s.setMem m).env = s.env := rfl
@[simp] theorem State.setMem_clock (m : Memory) : (s.setMem m).clock = s.clock := rfl
@[simp] theorem State.setMem_status (m : Memory) : (s.setMem m).status = s.status := rfl
@[simp] theorem State.setMem_reg (m : Memory) (q : Reg) : (s.setMem m).reg q = s.reg q := rfl

/-! ### setM2p -/

@[simp] theorem State.setM2p_regs (l : List Word) : (s.setM2p l).regs = s.regs := rfl
@[simp] theorem State.setM2p_pc (l : List Word) : (s.setM2p l).pc = s.pc := rfl
@[simp] theorem State.setM2p_mem (l : List Word) : (s.setM2p l).mem = s.mem := rfl
@[simp] theorem State.setM2p_m2p (l : List Word) : (s.setM2p l).m2p = l := rfl
@[simp] theorem State.setM2p_p2m (l : List Word) : (s.setM2p l).p2m = s.p2m := rfl
@[simp] theorem State.setM2p_p2mReady (l : List Word) : (s.setM2p l).p2mReady = s.p2mReady := rfl
@[simp] theorem State.setM2p_xcelHistory (l : List Word) : (s.setM2p l).xcelHistory = s.xcelHistory := rfl
@[simp] theorem State.setM2p_xcelReadStalls (l : List Word) : (s.setM2p l).xcelReadStalls = s.xcelReadStalls := rfl
@[simp] theorem State.setM2p_xcelWriteStalls (l : List Word) : (s.setM2p l).xcelWriteStalls = s.xcelWriteStalls := rfl
@[simp] theorem State.setM2p_env (l : List Word) : (s.setM2p l).env = s.env := rfl
@[simp] theorem State.setM2p_clock (l : List Word) : (s.setM2p l).clock = s.clock := rfl
@[simp] theorem State.setM2p_status (l : List Word) : (s.setM2p l).status = s.status := rfl
@[simp] theorem State.setM2p_reg (l : List Word) (q : Reg) : (s.setM2p l).reg q = s.reg q := rfl

/-! ### pushP2m -/

@[simp] theorem State.pushP2m_regs (v : Word) : (s.pushP2m v).regs = s.regs := rfl
@[simp] theorem State.pushP2m_pc (v : Word) : (s.pushP2m v).pc = s.pc := rfl
@[simp] theorem State.pushP2m_mem (v : Word) : (s.pushP2m v).mem = s.mem := rfl
@[simp] theorem State.pushP2m_m2p (v : Word) : (s.pushP2m v).m2p = s.m2p := rfl
@[simp] theorem State.pushP2m_p2m (v : Word) : (s.pushP2m v).p2m = s.p2m ++ [v] := rfl
@[simp] theorem State.pushP2m_p2mReady (v : Word) : (s.pushP2m v).p2mReady = s.p2mReady := rfl
@[simp] theorem State.pushP2m_xcelHistory (v : Word) : (s.pushP2m v).xcelHistory = s.xcelHistory := rfl
@[simp] theorem State.pushP2m_xcelReadStalls (v : Word) : (s.pushP2m v).xcelReadStalls = s.xcelReadStalls := rfl
@[simp] theorem State.pushP2m_xcelWriteStalls (v : Word) : (s.pushP2m v).xcelWriteStalls = s.xcelWriteStalls := rfl
@[simp] theorem State.pushP2m_env (v : Word) : (s.pushP2m v).env = s.env := rfl
@[simp] theorem State.pushP2m_clock (v : Word) : (s.pushP2m v).clock = s.clock := rfl
@[simp] theorem State.pushP2m_status (v : Word) : (s.pushP2m v).status = s.status := rfl
@[simp] theorem State.pushP2m_reg (v : Word) (q : Reg) : (s.pushP2m v).reg q = s.reg q := rfl

/-! ### recordXcel -/

@[simp] theorem State.recordXcel_regs (x : XcelAccess) : (s.recordXcel x).regs = s.regs := rfl
@[simp] theorem State.recordXcel_pc (x : XcelAccess) : (s.recordXcel x).pc = s.pc := rfl
@[simp] theorem State.recordXcel_mem (x : XcelAccess) : (s.recordXcel x).mem = s.mem := rfl
@[simp] theorem State.recordXcel_m2p (x : XcelAccess) : (s.recordXcel x).m2p = s.m2p := rfl
@[simp] theorem State.recordXcel_p2m (x : XcelAccess) : (s.recordXcel x).p2m = s.p2m := rfl
@[simp] theorem State.recordXcel_p2mReady (x : XcelAccess) : (s.recordXcel x).p2mReady = s.p2mReady := rfl
@[simp] theorem State.recordXcel_xcelHistory (x : XcelAccess) : (s.recordXcel x).xcelHistory = s.xcelHistory ++ [x] := rfl
@[simp] theorem State.recordXcel_xcelReadStalls (x : XcelAccess) : (s.recordXcel x).xcelReadStalls = s.xcelReadStalls := rfl
@[simp] theorem State.recordXcel_xcelWriteStalls (x : XcelAccess) : (s.recordXcel x).xcelWriteStalls = s.xcelWriteStalls := rfl
@[simp] theorem State.recordXcel_env (x : XcelAccess) : (s.recordXcel x).env = s.env := rfl
@[simp] theorem State.recordXcel_clock (x : XcelAccess) : (s.recordXcel x).clock = s.clock := rfl
@[simp] theorem State.recordXcel_status (x : XcelAccess) : (s.recordXcel x).status = s.status := rfl
@[simp] theorem State.recordXcel_reg (x : XcelAccess) (q : Reg) : (s.recordXcel x).reg q = s.reg q := rfl

/-! ### setStatus -/

@[simp] theorem State.setStatus_regs (st : Status) : (s.setStatus st).regs = s.regs := rfl
@[simp] theorem State.setStatus_pc (st : Status) : (s.setStatus st).pc = s.pc := rfl
@[simp] theorem State.setStatus_mem (st : Status) : (s.setStatus st).mem = s.mem := rfl
@[simp] theorem State.setStatus_m2p (st : Status) : (s.setStatus st).m2p = s.m2p := rfl
@[simp] theorem State.setStatus_p2m (st : Status) : (s.setStatus st).p2m = s.p2m := rfl
@[simp] theorem State.setStatus_p2mReady (st : Status) : (s.setStatus st).p2mReady = s.p2mReady := rfl
@[simp] theorem State.setStatus_xcelHistory (st : Status) : (s.setStatus st).xcelHistory = s.xcelHistory := rfl
@[simp] theorem State.setStatus_xcelReadStalls (st : Status) : (s.setStatus st).xcelReadStalls = s.xcelReadStalls := rfl
@[simp] theorem State.setStatus_xcelWriteStalls (st : Status) : (s.setStatus st).xcelWriteStalls = s.xcelWriteStalls := rfl
@[simp] theorem State.setStatus_env (st : Status) : (s.setStatus st).env = s.env := rfl
@[simp] theorem State.setStatus_clock (st : Status) : (s.setStatus st).clock = s.clock := rfl
@[simp] theorem State.setStatus_status (st : Status) : (s.setStatus st).status = st := rfl
@[simp] theorem State.setStatus_reg (st : Status) (q : Reg) : (s.setStatus st).reg q = s.reg q := rfl

/-! ### The environment's turn -/

@[simp] theorem State.environmentTurn_regs : s.environmentTurn.regs = s.regs := by
  unfold State.environmentTurn; split <;> rfl

@[simp] theorem State.environmentTurn_reg (r : Reg) : s.environmentTurn.reg r = s.reg r := by
  simp [State.reg]

@[simp] theorem State.environmentTurn_pc : s.environmentTurn.pc = s.pc := by
  unfold State.environmentTurn; split <;> rfl

@[simp] theorem State.environmentTurn_mem : s.environmentTurn.mem = s.mem := by
  unfold State.environmentTurn; split <;> rfl

@[simp] theorem State.environmentTurn_p2m : s.environmentTurn.p2m = s.p2m := by
  unfold State.environmentTurn; split <;> rfl

@[simp] theorem State.environmentTurn_xcelHistory : s.environmentTurn.xcelHistory = s.xcelHistory := by
  unfold State.environmentTurn; split <;> rfl

@[simp] theorem State.environmentTurn_status : s.environmentTurn.status = s.status := by
  unfold State.environmentTurn; split <;> rfl

@[simp] theorem State.environmentTurn_clock : s.environmentTurn.clock = s.clock + 1 := by
  unfold State.environmentTurn; split <;> rfl

@[simp] theorem State.environmentTurn_env : s.environmentTurn.env = s.env.tail := by
  unfold State.environmentTurn; split <;> simp_all

/-- Words only arrive, and at the tail (R21). -/
theorem State.environmentTurn_m2p :
    s.environmentTurn.m2p = s.m2p ++ (s.env.head?.map EnvMove.deliver).getD [] := by
  unfold State.environmentTurn; split <;> simp_all [State.takeMove]

/-! ### General registers -/

@[simp] theorem readCell_zero (regs : Vector Word 31) : readCell regs 0 = 0#32 := rfl

@[simp] theorem writeCell_zero (regs : Vector Word 31) (v : Word) : writeCell regs 0 v = regs := rfl

theorem readCell_writeCell (regs : Vector Word 31) (rd r : Reg) (v : Word) :
    readCell (writeCell regs rd v) r = if r = rd ∧ r ≠ 0 then v else readCell regs r := by
  by_cases hr : r = 0
  · subst hr; simp
  · have hr' : r.val ≠ 0 := fun h => hr (Fin.ext h)
    by_cases hd : rd = 0
    · subst hd
      simp [hr]
    · have hd' : rd.val ≠ 0 := fun h => hd (Fin.ext h)
      simp only [readCell, writeCell, hr', hd', dite_false, Vector.getElem_set]
      by_cases h : r = rd
      · subst h; simp [hr]
      · have : rd.val - 1 ≠ r.val - 1 := fun e => h (Fin.ext (by omega))
        simp [h, this]

/-- R11. -/
@[simp] theorem State.reg_zero : s.reg 0 = 0#32 := rfl

/-- R11. -/
@[simp] theorem State.setReg_zero (v : Word) : s.setReg 0 v = s := rfl

theorem State.reg_setReg (rd r : Reg) (v : Word) :
    (s.setReg rd v).reg r = if r = rd ∧ r ≠ 0 then v else s.reg r := readCell_writeCell s.regs rd r v

end Sys2Proof.Machine
end

