-- ==== Sys2Proof/Laws/Ops.lean ====
section
/-! SUPPORT. What each shared operation can do, once each: address checks, CSR numbers, the CSR primitives,
fetching and placing a word, runs. -/

namespace Sys2Proof.Machine

/-! ### Addresses -/

theorem aligned_iff (a : Word) : aligned a = true ↔ a.toNat % 4 = 0 := by
  simp only [aligned, beq_iff_eq, ← BitVec.toNat_inj, BitVec.extractLsb'_toNat]
  simp

theorem inRange_iff (a : Word) : inRange a = true ↔ a.toNat ≤ 0xFFFFF := by
  unfold inRange Config.memBytes
  rw [decide_eq_true_iff]
  omega

/-- R31: an aligned address in range leaves room for its whole word. -/
theorem word_fits {a : Word} (h : aligned a = true) (h' : inRange a = true) : a.toNat + 3 < Config.memBytes := by
  rw [aligned_iff] at h
  rw [inRange_iff] at h'
  simp only [Config.memBytes]
  omega

/-- The checks of R92, in their order. -/
theorem accessFault_cases (a : Word) :
    (a.toNat % 4 ≠ 0 ∧ accessFault a = some (.misalignedAccess a)) ∨
    (a.toNat % 4 = 0 ∧ 0xFFFFF < a.toNat ∧ accessFault a = some (.addressOutOfRange a)) ∨
    (a.toNat % 4 = 0 ∧ a.toNat ≤ 0xFFFFF ∧ accessFault a = none) := by
  have h := aligned_iff a
  have h' := inRange_iff a
  unfold accessFault
  by_cases ha : aligned a = true <;> by_cases hr : inRange a = true <;> simp_all

theorem accessFault_none {a : Word} (h : accessFault a = none) : aligned a = true ∧ inRange a = true := by
  rw [aligned_iff, inRange_iff]
  rcases accessFault_cases a with ⟨-, e⟩ | ⟨-, -, e⟩ | ⟨h1, h2, -⟩ <;> simp_all

/-! ### The CSR primitives -/

/-- Everything a CSR read can do (R72): take the head of `m2p`, read the accelerator, stall or fault. -/
theorem csrRead_done {n : CsrNumber} {s t : State} {v : Word} (h : csrRead n s = .done (v, t)) :
    (csrOfNumber n = some .mngr2proc ∧ ∃ rest, s.m2p = v :: rest ∧ t = s.setM2p rest) ∨
    (∃ k, csrOfNumber n = some (.xcelreg k) ∧ k ∉ s.xcelReadStalls ∧
      v = Config.xcelRead s.clock s.xcelHistory k ∧ t = s.recordXcel (.read k)) := by
  unfold csrRead at h
  split at h
  · refine .inl ⟨‹_›, ?_⟩
    unfold dequeueM2p at h
    split at h <;> simp_all
  · simp at h
  · refine .inr ⟨_, ‹_›, ?_⟩
    unfold xcelReadReg at h
    split at h <;> simp_all
  · simp at h

/-- Everything a CSR write can do (R73): append to `p2m`, write the accelerator, stall or fault. -/
theorem csrWrite_done {n : CsrNumber} {s t : State} {v : Word} (h : csrWrite n v s = .done t) :
    (csrOfNumber n = some .proc2mngr ∧ s.p2mReady = true ∧ t = s.pushP2m v) ∨
    (∃ k, csrOfNumber n = some (.xcelreg k) ∧ k ∉ s.xcelWriteStalls ∧ t = s.recordXcel (.write k v)) := by
  unfold csrWrite at h
  split at h
  · refine .inl ⟨‹_›, ?_⟩
    unfold enqueueP2m at h
    split at h <;> simp_all
  · simp at h
  · refine .inr ⟨_, ‹_›, ?_⟩
    unfold xcelWriteReg at h
    split at h <;> simp_all
  · simp at h

/-! ### What a step can do -/

/-- Everything an instruction that answers a next state can have done (R7 line 5): a register written, a
word stored, a branch, a CSR access, or a stall. -/
theorem exec_next_cases {i : Instr} {s t : State} (h : exec i s = .next t) :
    t = s ∨
    (∃ rd v, t = (s.setReg rd v).setPc (s.pc + 4#32)) ∨
    (∃ a v, aligned a = true ∧ inRange a = true ∧
      t = (s.setMem (Memory.writeWord s.mem a.toNat v)).setPc (s.pc + 4#32)) ∨
    t = s.setPc (s.pc + 4#32) ∨
    (∃ a, aligned a = true ∧ t = s.setPc a) ∨
    (∃ rd v rest, s.m2p = v :: rest ∧ t = ((s.setM2p rest).setReg rd v).setPc (s.pc + 4#32)) ∨
    (∃ rd k, t = ((s.recordXcel (.read k)).setReg rd (Config.xcelRead s.clock s.xcelHistory k)).setPc (s.pc + 4#32)) ∨
    (∃ v, s.p2mReady = true ∧ t = (s.pushP2m v).setPc (s.pc + 4#32)) ∨
    (∃ k v, t = (s.recordXcel (.write k v)).setPc (s.pc + 4#32)) := by
  cases i with
  | csrr rd csr =>
    simp only [exec, execCsrr] at h
    split at h
    · rename_i v u hr
      rcases csrRead_done hr with ⟨-, rest, hm, rfl⟩ | ⟨k, -, -, rfl, rfl⟩ <;> cases h
      · exact .inr (.inr (.inr (.inr (.inr (.inl ⟨rd, v, rest, hm, rfl⟩)))))
      · exact .inr (.inr (.inr (.inr (.inr (.inr (.inl ⟨rd, k, rfl⟩))))))
    · cases h; exact .inl rfl
    · cases h
  | csrw csr rs1 =>
    simp only [exec, execCsrw] at h
    split at h
    · rename_i u hw
      rcases csrWrite_done hw with ⟨-, hready, rfl⟩ | ⟨k, -, -, rfl⟩ <;> cases h
      · exact .inr (.inr (.inr (.inr (.inr (.inr (.inr (.inl ⟨_, hready, rfl⟩)))))))
      · exact .inr (.inr (.inr (.inr (.inr (.inr (.inr (.inr ⟨k, _, rfl⟩)))))))
    · cases h; exact .inl rfl
    · cases h
  | add => cases h; exact .inr (.inl ⟨_, _, rfl⟩)
  | and => cases h; exact .inr (.inl ⟨_, _, rfl⟩)
  | sll => cases h; exact .inr (.inl ⟨_, _, rfl⟩)
  | srl => cases h; exact .inr (.inl ⟨_, _, rfl⟩)
  | addi => cases h; exact .inr (.inl ⟨_, _, rfl⟩)
  | lw =>
    simp only [exec, execLw] at h
    split at h <;> cases h
    exact .inr (.inl ⟨_, _, rfl⟩)
  | sw =>
    simp only [exec, execSw] at h
    split at h <;> cases h
    obtain ⟨ha, hr⟩ := accessFault_none ‹_›
    exact .inr (.inr (.inl ⟨_, _, ha, hr, rfl⟩))
  | bne =>
    simp only [exec, execBne] at h
    split at h
    · split at h <;> cases h
      exact .inr (.inr (.inr (.inr (.inl ⟨_, ‹_›, rfl⟩))))
    · cases h; exact .inr (.inr (.inr (.inl rfl)))

/-- Everything a step that answers a next state has done (R7). -/
theorem step_next {s u : State} (h : step s = .next u) :
    s.status = .running ∧ ∃ i t, fetch s = .ok i ∧ exec i s = .next t ∧ u = t.environmentTurn := by
  unfold step at h
  split at h
  · cases h
  · refine ⟨‹_›, ?_⟩
    split at h
    · cases h
    · split at h <;> cases h
      exact ⟨_, _, ‹_›, ‹_›, rfl⟩

/-- What fetch does where it is possible (R7 lines 3 and 4). -/
theorem fetch_of_canFetch {s : State} (h : s.canFetch) :
    fetch s = match decodeWord (Memory.readWord s.mem s.pc.toNat) with
      | .ok i => .ok i
      | .error _ => .error (.illegalInstruction s.pc (Memory.readWord s.mem s.pc.toNat)) := by
  obtain ⟨-, h1, h2⟩ := h
  unfold fetch
  rw [h1, h2]
  rfl

/-- The word that `withFetchWord` places is the word the next step fetches. -/
theorem readWord_withFetchWord {s : State} (h : s.canFetch) (nbits w : Nat) :
    Memory.readWord (s.withFetchWord nbits w).mem (s.withFetchWord nbits w).pc.toNat =
      BitVec.ofNat 32 (w % 2 ^ nbits) := by
  obtain ⟨-, h1, h2⟩ := h
  simp [State.withFetchWord, h1, h2, Memory.readWord_writeWord]

/-! ### Runs (R8, R127) -/

/-- Everything a verdict can be. -/
theorem runVerdict_cases (e : EndOfRun) (s : State) :
    ((∃ f, s.status = .faulted f) ∧ runVerdict e s = some (.faulted s)) ∨
    (s.status = .running ∧ e.holds s = true ∧ runVerdict e s = some (.ended s)) ∨
    (s.status = .running ∧ e.holds s = false ∧ runVerdict e s = none) := by
  unfold runVerdict
  cases s.status <;> cases e.holds s <;> simp

/-- A run that is over stays over, however many more steps it is given. -/
theorem runUntil_of_verdict {e : EndOfRun} {s : State} {o : RunOutcome} (h : runVerdict e s = some o) (n : Nat) :
    runUntil e n s = o := by
  cases n <;> simp [runUntil, h]

theorem runUntil_zero_of_none {e : EndOfRun} {s : State} (h : runVerdict e s = none) :
    runUntil e 0 s = .unfinished s := by
  simp [runUntil, h]

/-- A run that is not over takes one step and goes on from there, or faults there. -/
theorem runUntil_succ_of_none {e : EndOfRun} {s : State} (h : runVerdict e s = none) (n : Nat) :
    runUntil e (n + 1) s =
      match step s with
      | .next t => runUntil e n t
      | .fault f => .faulted (s.setStatus (.faulted f))
      | .refused _ => .unfinished s := by
  cases hs : step s <;> simp [runUntil, h, hs]

end Sys2Proof.Machine
end

