-- ==== Sys2Proof/Laws/Exec.lean ====
section
/-! SUPPORT. The equations of the meanings that have cases, one lemma per case, over the named updates
(spec/40_csr.md, spec/42_mem.md, spec/43_branch.md). -/

namespace Sys2Proof.Machine

variable {s : State}

/-! ### LW and SW -/

theorem exec_lw_of_ok {rs1 : Reg} {imm : BitVec 12} (h : accessFault (s.reg rs1 + imm.signExtend 32) = none)
    (rd : Reg) : exec (.lw rd rs1 imm) s =
      .next ((s.setReg rd (Memory.readWord s.mem (s.reg rs1 + imm.signExtend 32).toNat)).setPc (s.pc + 4#32)) := by
  simp only [exec, execLw, effectiveAddress, immI, h, complete, State.setReg_pc]

theorem exec_lw_of_fault {rs1 : Reg} {imm : BitVec 12} {f : Fault}
    (h : accessFault (s.reg rs1 + imm.signExtend 32) = some f) (rd : Reg) :
    exec (.lw rd rs1 imm) s = .fault f := by
  simp only [exec, execLw, effectiveAddress, immI, h, raise]

theorem exec_sw_of_ok {rs1 : Reg} {imm : BitVec 12} (h : accessFault (s.reg rs1 + imm.signExtend 32) = none)
    (rs2 : Reg) : exec (.sw rs2 rs1 imm) s =
      .next ((s.setMem (Memory.writeWord s.mem (s.reg rs1 + imm.signExtend 32).toNat (s.reg rs2))).setPc
        (s.pc + 4#32)) := by
  simp only [exec, execSw, effectiveAddress, immS, h, complete, State.setMem_pc]

theorem exec_sw_of_fault {rs1 : Reg} {imm : BitVec 12} {f : Fault}
    (h : accessFault (s.reg rs1 + imm.signExtend 32) = some f) (rs2 : Reg) :
    exec (.sw rs2 rs1 imm) s = .fault f := by
  simp only [exec, execSw, effectiveAddress, immS, h, raise]

/-! ### BNE -/

theorem exec_bne_of_eq {rs1 rs2 : Reg} (h : s.reg rs1 = s.reg rs2) (imm : BitVec 13) :
    exec (.bne rs1 rs2 imm) s = .next (s.setPc (s.pc + 4#32)) := by
  simp [exec, execBne, registersDiffer, h, complete]

theorem exec_bne_of_taken {rs1 rs2 : Reg} (h : s.reg rs1 ≠ s.reg rs2) {imm : BitVec 13}
    (ha : aligned (s.pc + imm.signExtend 32) = true) :
    exec (.bne rs1 rs2 imm) s = .next (s.setPc (s.pc + imm.signExtend 32)) := by
  simp [exec, execBne, registersDiffer, h, branchTarget, immB, ha, completeAt]

theorem exec_bne_of_misaligned {rs1 rs2 : Reg} (h : s.reg rs1 ≠ s.reg rs2) {imm : BitVec 13}
    (ha : aligned (s.pc + imm.signExtend 32) = false) :
    exec (.bne rs1 rs2 imm) s = .fault (.misalignedBranchTarget s.pc (s.pc + imm.signExtend 32)) := by
  simp [exec, execBne, registersDiffer, h, branchTarget, immB, ha, raise]

/-! ### CSRR and CSRW -/

theorem exec_csrr_of_done {csr : CsrNumber} {v : Word} {t : State} (h : csrRead csr s = .done (v, t)) (rd : Reg) :
    exec (.csrr rd csr) s = .next ((t.setReg rd v).setPc (t.pc + 4#32)) := by
  simp only [exec, execCsrr, h, complete, State.setReg_pc]

theorem exec_csrr_of_stalled {csr : CsrNumber} (h : csrRead csr s = .stalled) (rd : Reg) :
    exec (.csrr rd csr) s = .next s := by
  simp only [exec, execCsrr, h, stall]

theorem exec_csrr_of_faulted {csr : CsrNumber} {f : Fault} (h : csrRead csr s = .faulted f) (rd : Reg) :
    exec (.csrr rd csr) s = .fault f := by
  simp only [exec, execCsrr, h, raise]

theorem exec_csrw_of_done {csr : CsrNumber} {rs1 : Reg} {t : State} (h : csrWrite csr (s.reg rs1) s = .done t) :
    exec (.csrw csr rs1) s = .next (t.setPc (t.pc + 4#32)) := by
  simp only [exec, execCsrw, h, complete]

theorem exec_csrw_of_stalled {csr : CsrNumber} {rs1 : Reg} (h : csrWrite csr (s.reg rs1) s = .stalled) :
    exec (.csrw csr rs1) s = .next s := by
  simp only [exec, execCsrw, h, stall]

theorem exec_csrw_of_faulted {csr : CsrNumber} {rs1 : Reg} {f : Fault}
    (h : csrWrite csr (s.reg rs1) s = .faulted f) : exec (.csrw csr rs1) s = .fault f := by
  simp only [exec, execCsrw, h, raise]

end Sys2Proof.Machine
end

