-- ==== Sys2Proof/Laws/PerInstr.lean ====
section
/-! SUPPORT. Per-instruction law: the word an instruction encodes to is covered by its own row of the opcode
map (spec/30_encoding.md R57). -/

namespace Sys2Proof.Laws.EncodeRow

/-- The instruction's row of the opcode map covers its word. -/
def Statement (i : Instr) : Prop := ∃ r ∈ opcodeTable, r.op = i.op ∧ r.covers (encode i) = true

theorem csrr (rd : Reg) (csr : CsrNumber) : Statement (.csrr rd csr) := by
  refine ⟨⟨.csrr, 0x00002073#32, 0x000FF07F#32⟩, by decide, rfl, ?_⟩
  simp only [Row.covers, encode, encodeI, beq_iff_eq]
  ext j hj
  simp only [BitVec.getElem_and, BitVec.getElem_append]
  interval_cases j <;> simp [regBits]

theorem csrw (csr : CsrNumber) (rs1 : Reg) : Statement (.csrw csr rs1) := by
  refine ⟨⟨.csrw, 0x00001073#32, 0x00007FFF#32⟩, by decide, rfl, ?_⟩
  simp only [Row.covers, encode, encodeI, beq_iff_eq]
  ext j hj
  simp only [BitVec.getElem_and, BitVec.getElem_append]
  interval_cases j <;> simp [regBits]

/-- The four R-type rows differ in `funct3` alone. -/
theorem encodeR_covered (funct3 : BitVec 3) (pattern : Word) (hp : pattern = encodeR 0#7 0 0 funct3 0 0b0110011#7)
    (rd rs1 rs2 : Reg) : encodeR 0#7 rs2 rs1 funct3 rd 0b0110011#7 &&& 0xFE00707F#32 = pattern := by
  subst hp
  refine BitVec.eq_of_getLsbD_eq fun j hj => ?_
  simp only [encodeR, regBits, BitVec.getLsbD_and, BitVec.getLsbD_append]
  interval_cases j <;> simp

theorem add (rd rs1 rs2 : Reg) : Statement (.add rd rs1 rs2) :=
  ⟨⟨.add, 0x00000033#32, 0xFE00707F#32⟩, by decide, rfl, beq_iff_eq.2 (encodeR_covered _ _ rfl rd rs1 rs2)⟩

theorem and (rd rs1 rs2 : Reg) : Statement (.and rd rs1 rs2) :=
  ⟨⟨.and, 0x00007033#32, 0xFE00707F#32⟩, by decide, rfl, beq_iff_eq.2 (encodeR_covered _ _ rfl rd rs1 rs2)⟩

theorem sll (rd rs1 rs2 : Reg) : Statement (.sll rd rs1 rs2) :=
  ⟨⟨.sll, 0x00001033#32, 0xFE00707F#32⟩, by decide, rfl, beq_iff_eq.2 (encodeR_covered _ _ rfl rd rs1 rs2)⟩

theorem srl (rd rs1 rs2 : Reg) : Statement (.srl rd rs1 rs2) :=
  ⟨⟨.srl, 0x00005033#32, 0xFE00707F#32⟩, by decide, rfl, beq_iff_eq.2 (encodeR_covered _ _ rfl rd rs1 rs2)⟩

theorem addi (rd rs1 : Reg) (imm : BitVec 12) : Statement (.addi rd rs1 imm) := by
  refine ⟨⟨.addi, 0x00000013#32, 0x0000707F#32⟩, by decide, rfl, ?_⟩
  simp only [Row.covers, encode, encodeI, beq_iff_eq]
  ext j hj
  simp only [BitVec.getElem_and, BitVec.getElem_append]
  interval_cases j <;> simp [regBits]

theorem lw (rd rs1 : Reg) (imm : BitVec 12) : Statement (.lw rd rs1 imm) := by
  refine ⟨⟨.lw, 0x00002003#32, 0x0000707F#32⟩, by decide, rfl, ?_⟩
  simp only [Row.covers, encode, encodeI, beq_iff_eq]
  ext j hj
  simp only [BitVec.getElem_and, BitVec.getElem_append]
  interval_cases j <;> simp [regBits]

theorem sw (rs2 rs1 : Reg) (imm : BitVec 12) : Statement (.sw rs2 rs1 imm) := by
  refine ⟨⟨.sw, 0x00002023#32, 0x0000707F#32⟩, by decide, rfl, ?_⟩
  simp only [Row.covers, encode, encodeS, beq_iff_eq]
  ext j hj
  simp only [BitVec.getElem_and, BitVec.getElem_append]
  interval_cases j <;> simp [regBits]

theorem bne (rs1 rs2 : Reg) (imm : BitVec 13) : Statement (.bne rs1 rs2 imm) := by
  refine ⟨⟨.bne, 0x00001063#32, 0x0000707F#32⟩, by decide, rfl, ?_⟩
  simp only [Row.covers, encode, encodeS, beq_iff_eq]
  ext j hj
  simp only [BitVec.getElem_and, BitVec.getElem_append]
  interval_cases j <;> simp [regBits]

end Sys2Proof.Laws.EncodeRow
end

