-- ==== Sys2Proof/Tests/Slice0.lean ====
section
/-! SUPPORT. Tests: expected values are the spec's (spec/95_test_vectors.md, cited by its ids, and the rules),
and for every obligation with hypotheses a witness that meets them. -/

namespace Sys2Proof.Tests

open Sys2Proof.Machine

/-! ## Helpers -/

def nextOf : Result → Option State
  | .next t => some t
  | .fault _ => none
  | .refused _ => none

def faultOf : Result → Option Fault
  | .next _ => none
  | .fault f => some f
  | .refused _ => none

/-- The reset state with the word `w` at `pc`. -/
def placed (w : Nat) : State := State.reset.withFetchWord 32 w

/-! ## WellFormed: the one check refuses its ill-formed term (R56) -/

theorem test_wf_refuses_odd_branch_offset : (Instr.bne 1 2 0x003#13).wellFormed = false := by decide

theorem test_wf_accepts_even_branch_offset : (Instr.bne 1 2 0x002#13).wellFormed = true := by decide

/-! ## Decoding words written out from R57 (bits 31:25, 24:20, 19:15, 14:12, 11:7, 6:0) -/

/-- T-ENC-1. -/
theorem test_decode_add :
    decodeWord (0b0000000#7 ++ 0b00010#5 ++ 0b00001#5 ++ 0b000#3 ++ 0b00011#5 ++ 0b0110011#7) = .ok (.add 3 1 2) := by
  decide

/-- T-ENC-2. -/
theorem test_decode_and :
    decodeWord (0b0000000#7 ++ 0b00111#5 ++ 0b00110#5 ++ 0b111#3 ++ 0b00101#5 ++ 0b0110011#7) = .ok (.and 5 6 7) := by
  decide

/-- T-ENC-3. -/
theorem test_decode_sll :
    decodeWord (0b0000000#7 ++ 0b01100#5 ++ 0b01011#5 ++ 0b001#3 ++ 0b01010#5 ++ 0b0110011#7) =
      .ok (.sll 10 11 12) := by decide

/-- T-ENC-4. -/
theorem test_decode_srl :
    decodeWord (0b0000000#7 ++ 0b11101#5 ++ 0b11110#5 ++ 0b101#3 ++ 0b11111#5 ++ 0b0110011#7) =
      .ok (.srl 31 30 29) := by decide

/-- T-ENC-6: imm = -1. -/
theorem test_decode_addi :
    decodeWord (0b111111111111#12 ++ 0b00010#5 ++ 0b000#3 ++ 0b00010#5 ++ 0b0010011#7) = .ok (.addi 2 2 0xFFF#12) := by
  decide

/-- T-ENC-10: imm = 8. -/
theorem test_decode_lw :
    decodeWord (0b000000001000#12 ++ 0b00110#5 ++ 0b010#3 ++ 0b00101#5 ++ 0b0000011#7) = .ok (.lw 5 6 8#12) := by
  decide

/-- T-ENC-14: imm = -8, split 1111111 and 11000. -/
theorem test_decode_sw :
    decodeWord (0b1111111#7 ++ 0b00111#5 ++ 0b01000#5 ++ 0b010#3 ++ 0b11000#5 ++ 0b0100011#7) =
      .ok (.sw 7 8 0xFF8#12) := by decide

/-- The branch of the field breakdown, `bne x1, x0, -8`: inst[11:8] = 1100, inst[7] = 1. -/
theorem test_decode_bne :
    decodeWord (0b1111111#7 ++ 0b00000#5 ++ 0b00001#5 ++ 0b001#3 ++ 0b11001#5 ++ 0b1100011#7) =
      .ok (.bne 1 0 0x1FF8#13) := by decide

/-- T-ENC-24: immB bit 11 alone is inst[7]. -/
theorem test_decode_bne_bit11 : decodeWord 0x002090E3#32 = .ok (.bne 1 2 0x800#13) := by decide

/-- T-ENC-28: csr = 0xFC0. -/
theorem test_decode_csrr :
    decodeWord (0b111111000000#12 ++ 0b00000#5 ++ 0b010#3 ++ 0b00001#5 ++ 0b1110011#7) = .ok (.csrr 1 0xFC0#12) := by
  decide

/-- T-ENC-30: csr = 0x7C0. -/
theorem test_decode_csrw :
    decodeWord (0b011111000000#12 ++ 0b00011#5 ++ 0b001#3 ++ 0b00000#5 ++ 0b1110011#7) = .ok (.csrw 0x7C0#12 3) := by
  decide

/-- T-ILL-1 to T-ILL-16. -/
theorem test_illegal_words_a :
    ([0x00000000#32, 0xFFFFFFFF#32, 0x402081B3#32, 0x4020D1B3#32, 0x0020E1B3#32, 0x0020C1B3#32, 0x0020A1B3#32,
      0x0020B1B3#32, 0x022081B3#32, 0x0010F093#32, 0x00109093#32, 0x00010083#32, 0x00011083#32, 0x00014083#32,
      0x00110023#32, 0x00111023#32] : List Word).all (fun w => decodeWord w == .error (.illegalWord w)) = true := by
  decide

/-- T-ILL-17 to T-ILL-32. -/
theorem test_illegal_words_b :
    ([0x00208463#32, 0x0020C463#32, 0x000010B7#32, 0x00000097#32, 0x0000006F#32, 0x00008067#32, 0x0FF0000F#32,
      0x00000073#32, 0x00100073#32, 0x30200073#32, 0x10500073#32, 0xFC0120F3#32, 0x7C0110F3#32, 0x7C0030F3#32,
      0x7C00D073#32, 0x00000001#32] : List Word).all (fun w => decodeWord w == .error (.illegalWord w)) = true := by
  decide

/-- R50: three bytes are no instruction. -/
theorem test_decode_truncated : decodeBytes [0xB3#8, 0x81#8, 0x20#8] = .error .truncated := by decide

/-- T-FET-2: the bytes of `add x3, x1, x2`, least significant first. -/
theorem test_decode_bytes :
    decodeBytes [0xB3#8, 0x81#8, 0x20#8, 0x00#8, 0x13#8] = .ok (.add 3 1 2, [0x13#8]) := by decide

theorem test_decode_table_word : decodeTableWord 32 0x002081B3 = some (.add 3 1 2) := by decide

/-- T-ENC-15, T-ENC-23: encodings at the ends of the ranges. -/
theorem test_encode_extremes :
    encode (.sw 31 1 0x7FF#12) = 0x7FF0AFA3#32 ∧ encode (.bne 1 2 0x1000#13) = 0x80209063#32 := by decide

/-- R62: the operand order of `sw`, and D23: 0x7FF is `xcelreg32`. -/
theorem test_assembly :
    assembly (.sw 7 8 0xFF8#12) = "sw x7, -8(x8)" ∧ assembly (.csrw 0x7FF#12 31) = "csrw xcelreg32, x31" := by decide

/-- R12, R66. -/
theorem test_names_and_idioms : registerOfName "t6" = some 31 ∧ encode nop = 0x00000013#32 := by decide

/-! ## One step of each instruction -/

/-- T-ADD-2: signed overflow wraps. -/
theorem test_add_wraps :
    (nextOf (step (((placed 0x002081B3).setReg 1 0x7FFFFFFF#32).setReg 2 1#32))).map (fun t => (t.reg 3, t.pc)) =
      some (0x80000000#32, 0x204#32) := by decide

/-- T-ADD-9: destination x0. -/
theorem test_add_to_x0 :
    (nextOf (step (((placed 0x00208033).setReg 1 1#32).setReg 2 2#32))).map (fun t => (t.reg 0, t.reg 1, t.pc)) =
      some (0#32, 1#32, 0x204#32) := by decide

/-- T-AND-1. -/
theorem test_and :
    (nextOf (exec (.and 5 6 7) ((State.reset.setReg 6 0xA1B2C3D4#32).setReg 7 0x0000FF00#32))).map (fun t => t.reg 5) =
      some 0x0000C300#32 := by decide

/-- T-SLL-7: only the low five bits of the amount count. -/
theorem test_sll_amount_is_five_bits :
    (nextOf (exec (.sll 10 11 12) ((State.reset.setReg 11 0xFF#32).setReg 12 0x28#32))).map (fun t => t.reg 10) =
      some 0xFF00#32 := by decide

/-- T-SLL-11: one register three times. -/
theorem test_sll_same_register :
    (nextOf (exec (.sll 1 1 1) (State.reset.setReg 1 3#32))).map (fun t => t.reg 1) = some 0x18#32 := by decide

/-- T-SRL-4: logical, and 63 acts as 31. -/
theorem test_srl_is_logical :
    (nextOf (exec (.srl 31 30 29) ((State.reset.setReg 30 0x80000000#32).setReg 29 0x3F#32))).map (fun t => t.reg 31) =
      some 1#32 := by decide

/-- T-ADDI-2, T-ADDI-7: the immediate is sign-extended. -/
theorem test_addi_sign_extends :
    (nextOf (exec (.addi 1 2 0xFFF#12) (State.reset.setReg 2 0x80000000#32))).map (fun t => t.reg 1) =
      some 0x7FFFFFFF#32 := by decide

/-- Four bytes at 0x1008 (T-LW-1). -/
def withBytes : State := State.reset.setMem [(0x1008, 0x78#8), (0x1009, 0x56#8), (0x100A, 0x34#8), (0x100B, 0x12#8)]

/-- T-LW-1: little endian. -/
theorem test_lw :
    (nextOf (exec (.lw 5 6 8#12) (withBytes.setReg 6 0x1000#32))).map (fun t => t.reg 5) = some 0x12345678#32 := by
  decide

/-- T-LW-8: misaligned and out of range reports the misalignment; T-LW-7: the address wraps. -/
theorem test_lw_faults :
    faultOf (exec (.lw 5 6 8#12) (State.reset.setReg 6 0xFFFF9#32)) = some (.misalignedAccess 0x100001#32) ∧
    faultOf (exec (.lw 5 6 0xFFC#12) State.reset) = some (.addressOutOfRange 0xFFFFFFFC#32) := by decide

/-- T-SW-1: the bytes in memory, in the one canonical list. -/
theorem test_sw :
    (nextOf (exec (.sw 7 8 12#12) ((State.reset.setReg 7 0xA1B2C3D4#32).setReg 8 0x2000#32))).map (fun t => t.mem) =
      some [(0x200C, 0xD4#8), (0x200D, 0xC3#8), (0x200E, 0xB2#8), (0x200F, 0xA1#8)] := by decide

/-- T-SW-4, T-SW-5: the first address outside, and the last word. -/
theorem test_sw_at_the_top :
    faultOf (exec (.sw 7 8 12#12) (State.reset.setReg 8 0xFFFF4#32)) = some (.addressOutOfRange 0x100000#32) ∧
    (nextOf (exec (.sw 7 8 12#12) ((State.reset.setReg 7 0x55AA55AA#32).setReg 8 0xFFFF0#32))).map
      (fun t => Memory.readWord t.mem 0xFFFFC) = some 0x55AA55AA#32 := by decide

/-- T-BNE-14, T-BNE-15: backward, and wrapping below zero. -/
theorem test_bne_backward :
    (nextOf (exec (.bne 1 2 0x1000#13) ((State.reset.setPc 0x1200#32).setReg 1 1#32))).map (fun t => t.pc) =
      some 0x200#32 ∧
    (nextOf (exec (.bne 1 2 0x1000#13) (State.reset.setReg 1 1#32))).map (fun t => t.pc) = some 0xFFFFF200#32 := by
  decide

/-- T-BNE-10, T-BNE-11: a misaligned target faults only when the branch is taken. -/
theorem test_bne_misaligned_target :
    faultOf (step ((placed 0x00419163).setReg 3 1#32)) = some (.misalignedBranchTarget 0x200#32 0x202#32) ∧
    (nextOf (step (placed 0x00419163))).map (fun t => t.pc) = some 0x204#32 := by decide

/-- T-CSR-1, T-CSR-5: the head is taken, for x0 too. -/
theorem test_csrr_dequeues :
    (nextOf (step ((placed 0xFC0020F3).setM2p [7#32, 0xFFFFFFFB#32]))).map (fun t => (t.reg 1, t.m2p, t.pc)) =
      some (7#32, [0xFFFFFFFB#32], 0x204#32) ∧
    (nextOf (step ((placed 0xFC002073).setM2p [0x11#32, 0x22#32]))).map (fun t => (t.reg 0, t.m2p)) =
      some (0#32, [0x22#32]) := by decide

/-- T-CSR-2: an empty FIFO stalls; the manager's move then lets the retry complete. -/
theorem test_csrr_stalls_until_delivery :
    (nextOf (steps 2 { placed 0xFC0020F3 with env := [⟨[7#32], true, [], []⟩] })).map (fun t => (t.reg 1, t.m2p, t.pc)) =
      some (7#32, [], 0x204#32) ∧
    (nextOf (steps 2 (placed 0xFC0020F3))).map (fun t => (t.reg 1, t.pc)) = some (0#32, 0x200#32) := by decide

/-- T-CSR-3, T-CSR-4. -/
theorem test_csrw :
    (nextOf (step ((placed 0x7C019073).setReg 3 2#32))).map (fun t => (t.p2m, t.pc)) = some ([2#32], 0x204#32) ∧
    (nextOf (step { placed 0x7C019073 with p2mReady := false })).map (fun t => (t.p2m, t.pc)) =
      some ([], 0x200#32) := by decide

/-- T-CSR-7 to T-CSR-11. -/
theorem test_csr_faults :
    faultOf (step (placed 0x7C0020F3)) = some (.undefinedCSRAccess 0x7C0#12 .read) ∧
    faultOf (step (placed 0xFC009073)) = some (.undefinedCSRAccess 0xFC0#12 .write) ∧
    faultOf (step (placed 0x7DF020F3)) = some (.unsupportedCSR 0x7DF#12) ∧
    faultOf (step (placed 0x800020F3)) = some (.unsupportedCSR 0x800#12) := by decide

/-- T-CSR-12, T-CSR-13: the accesses are recorded and the pc goes on; the value read is free. -/
theorem test_xcel :
    (nextOf (step (placed 0x7E0022F3))).map (fun t => (t.xcelHistory, t.pc)) = some ([.read 0], 0x204#32) ∧
    (nextOf (step ((placed 0x7E149073).setReg 9 5#32))).map (fun t => (t.xcelHistory, t.pc)) =
      some ([.write 1 5#32], 0x204#32) := by decide

/-- T-FET-3, T-FET-4, and R7 line 1. -/
theorem test_fetch_faults :
    faultOf (step (State.reset.setPc 0x100000#32)) = some (.fetchOutOfRange 0x100000#32) ∧
    (nextOf (step ((State.reset.setPc 0xFFFFC#32).withFetchWord 32 0x13))).map (fun t => t.pc) = some 0x100000#32 ∧
    faultOf (step (State.reset.setPc 0x202#32)) = some (.misalignedFetch 0x202#32) := by decide

/-- V1: an illegal word faults with the pc and the word. -/
theorem test_illegal_instruction :
    faultOf (step (placed 0x00000073)) = some (.illegalInstruction 0x200#32 0x73#32) := by decide

/-- R8: a Faulted machine answers its fault again. -/
theorem test_faulted_takes_no_step :
    faultOf (step (placed 0x00000000).afterStep) = some (.illegalInstruction 0x200#32 0#32) := by decide

/-- R127: a run ends where pc first equals the address; the instruction there is not executed. -/
theorem test_run_until :
    runUntil (.atAddress 0x204#32) 3 (placed 0x13) = .ended ({ (placed 0x13).setPc 0x204#32 with clock := 1 }) := by
  decide

/-- R8: a Faulted machine at the end address has not ended, with steps left or without. -/
theorem test_run_until_faulted :
    runUntil (.atAddress 0x200#32) 0 (placed 0).afterStep = .faulted (placed 0).afterStep ∧
    runUntil (.afterWords 0) 2 (placed 0).afterStep = .faulted (placed 0).afterStep := by decide

/-! ## Witnesses: states and operands that meet the hypotheses of each obligation, one a clause -/

theorem witness_DecodeOfEncode : (Instr.bne 31 0 0x1FFE#13).wellFormed = true := by decide

theorem witness_EncodeOfDecode : decodeWord 0x80209063#32 = .ok (.bne 1 2 0x1000#13) := by decide

theorem witness_ImmediateOfIType :
    decodeWord 0x80008093#32 = .ok (.addi 1 1 0x800#12) ∧ decodeWord 0x7FC02083#32 = .ok (.lw 1 0 0x7FC#12) := by decide

theorem witness_ImmediateOfSType : decodeWord 0x81F0A023#32 = .ok (.sw 31 1 0x800#12) := by decide

theorem witness_ImmediateOfBType :
    decodeWord 0x7E209FE3#32 = .ok (.bne 1 2 0xFFE#13) ∧ (0xFFE#13).getLsbD 0 = false := by decide

theorem witness_BytesDecodeAsWords : ([0x13#8, 0#8, 0#8] : List Byte).length < 4 := by decide

theorem witness_CsrNumbersAreThirtyFour : csrOfNumber 0x7FF#12 = some (.xcelreg 31) := by decide

theorem witness_AssembledOperandsKeepTheirValue :
    ((-2048 : Int) ≤ -2048 ∧ (-2048 : Int) ≤ 2047) ∧ ((2047 : Int) < 2048) ∧
    ((-4096 : Int) ≤ 4094 ∧ (4094 : Int) ≤ 4094 ∧ (4094 : Int) % 2 = 0) ∧ ((4095 : Int) % 2 ≠ 0) ∧
    (4095 ≤ 4095) ∧ (4095 < 4096) := by decide

theorem witness_GeneralRegisters :
    (31 : Reg) ≠ 0 ∧ (30 : Reg) ≠ 31 ∧
    ∃ t, exec (.addi 31 0 1#12) State.reset = .next t ∧ t.reg 31 ≠ State.reset.reg 31 := by
  exact ⟨by decide, by decide, _, rfl, by decide⟩

theorem witness_ZeroRegister :
    accessFault (State.reset.reg 0 + (0x7FC#12).signExtend 32) = none ∧
    accessFault (State.reset.reg 0 + (0xFFC#12).signExtend 32) = some (.addressOutOfRange 0xFFFFFFFC#32) ∧
    (State.reset.setM2p [0x11#32]).m2p = [0x11#32] := by decide

theorem witness_SourcesReadBeforeDestination :
    (31 : Reg) ≠ 0 ∧ accessFault ((State.reset.setReg 31 0xFFFFC#32).reg 31 + (0#12).signExtend 32) = none := by decide

/-- The last word of memory, and the first address of it. -/
theorem witness_LoadAndStoreComplete :
    ((State.reset.setReg 6 0xFFFF4#32).reg 6 + (8#12).signExtend 32).toNat % 4 = 0 ∧
    ((State.reset.setReg 6 0xFFFF4#32).reg 6 + (8#12).signExtend 32).toNat ≤ 0xFFFFF ∧
    (State.reset.reg 0 + (0#12).signExtend 32).toNat % 4 = 0 := by decide

theorem witness_BadAddressesFault :
    (State.reset.reg 0 + (0xFFF#12).signExtend 32).toNat % 4 ≠ 0 ∧
    ((State.reset.setReg 6 0xFFFF8#32).reg 6 + (8#12).signExtend 32).toNat % 4 = 0 ∧
    0xFFFFF < ((State.reset.setReg 6 0xFFFF8#32).reg 6 + (8#12).signExtend 32).toNat := by decide

theorem witness_OnlyStoresChangeMemory :
    ∃ t, exec (.sw 7 0 0#12) (State.reset.setReg 7 1#32) = .next t ∧ ¬ SameMemory withBytes (withBytes.setMem
      (Memory.writeWord withBytes.mem 0x1008 1#32)) := by
  refine ⟨_, exec_sw_of_ok (by decide) 7, fun h => ?_⟩
  have h1 := h 0x1008
  revert h1
  decide

theorem witness_LoadSeesLatestStore :
    (∃ t, exec (.sw 7 8 12#12) (State.reset.setReg 8 0xFFFF0#32) = .next t) ∧ (5 : Reg) ≠ 0 ∧
    accessFault ((State.reset.setReg 8 0xFFFF0#32).reg 8 + (12#12).signExtend 32) = none := by
  exact ⟨⟨_, exec_sw_of_ok (by decide) 7⟩, by decide, by decide⟩

/-- P5's store: `sw x1, 524(x0)` at 0x208 writes the word of `addi x0, x0, 0` to 0x20C. -/
theorem witness_FetchSeesEarlierStore :
    ∃ s t : State, s.canFetch ∧ fetch s = .ok (.sw 1 0 0x20C#12) ∧ step s = .next t ∧
      s.reg 0 + (0x20C#12).signExtend 32 = s.pc + 4#32 ∧ s.reg 1 = encode (.addi 0 0 0#12) ∧
      (Instr.addi 0 0 0#12).wellFormed = true := by
  obtain ⟨t, ht⟩ : ∃ t, step (((State.reset.setPc 0x208#32).setReg 1 0x13#32).withFetchWord 32 0x20102623) = .next t :=
    ⟨_, rfl⟩
  exact ⟨_, t, by decide, by decide, ht, by decide, by decide, by decide⟩

theorem witness_BranchNotEqualRule :
    State.reset.reg 1 = State.reset.reg 2 ∧
    ((State.reset.setReg 1 1#32).reg 1 ≠ (State.reset.setReg 1 1#32).reg 2 ∧
      ((State.reset.setReg 1 1#32).pc + (0x1000#13).signExtend 32).toNat % 4 = 0) ∧
    ((State.reset.setReg 1 1#32).pc + (0xFFE#13).signExtend 32).toNat % 4 ≠ 0 := by decide

/-- The three outcomes of SequentialFlow, and a fault. -/
theorem witness_SequentialFlow :
    (∃ t, exec (.csrr 1 0xFC0#12) State.reset = .next t ∧ Stalls (.csrr 1 0xFC0#12) State.reset) ∧
    (∃ t, exec (.addi 1 1 1#12) State.reset = .next t) ∧
    (∃ t, exec (.bne 1 0 8#13) (State.reset.setReg 1 1#32) = .next t) ∧
    (State.reset.reg 1 = State.reset.reg 2) ∧
    step (State.reset.setPc 0x100000#32) = .fault (.fetchOutOfRange 0x100000#32) :=
  ⟨⟨_, rfl, .inl ⟨rfl, rfl⟩⟩, ⟨_, rfl⟩, ⟨_, rfl⟩, rfl, rfl⟩

theorem witness_ManagerChannels :
    (State.reset.setM2p [7#32]).m2p = 7#32 :: [] ∧ State.reset.p2mReady = true := by decide

/-- Both ends of the accelerator's numbers. -/
theorem witness_AcceleratorAccessCompletes :
    (0x7E0#12).toNat = 0x7E0 + (0 : XcelReg).val ∧ (0x7FF#12).toNat = 0x7E0 + (31 : XcelReg).val ∧
    (31 : XcelReg) ∉ State.reset.xcelReadStalls ∧ (31 : XcelReg) ∉ State.reset.xcelWriteStalls := by decide

/-- The numbers just outside the 34. -/
theorem witness_CsrNumberFaults :
    ¬ isCsrNumber 0x7DF#12 ∧ ¬ isCsrNumber 0x800#12 ∧ ¬ isCsrNumber 0x7C1#12 ∧ ¬ isCsrNumber 0xFC1#12 := by
  unfold isCsrNumber; decide

theorem witness_StallChangesNothingAndRetries :
    Stalls (.csrr 1 0xFC0#12) (placed 0xFC0020F3) ∧ (placed 0xFC0020F3).canFetch ∧
      fetch (placed 0xFC0020F3) = .ok (.csrr 1 0xFC0#12) ∧
    Stalls (.csrw 0x7FF#12 1) { State.reset with xcelWriteStalls := [31] } := by
  exact ⟨.inl ⟨rfl, by decide⟩, by decide, by decide, .inr ⟨31, by decide, by decide⟩⟩

theorem witness_Runs : ∃ t, steps 1 (placed 0x13) = .next t := ⟨_, rfl⟩

theorem witness_FifosChangeOnlyThroughTheirCsr :
    (∃ t, exec (.csrw 0x7C0#12 1) State.reset = .next t ∧ t.p2m ≠ State.reset.p2m) ∧
    (∃ t, exec (.csrr 1 0xFC0#12) (State.reset.setM2p [7#32]) = .next t ∧ t.m2p ≠ [7#32]) :=
  ⟨⟨_, rfl, by decide⟩, ⟨_, rfl, by decide⟩⟩

/-- A fetched instruction that completes, and one that faults. -/
theorem witness_StepRunsTheFetchedInstruction :
    (placed 0x13).canFetch ∧
    decodeWord (Memory.readWord (placed 0x13).mem (placed 0x13).pc.toNat) = .ok (.addi 0 0 0#12) ∧
    (∃ t, exec (.addi 0 0 0#12) (placed 0x13) = .next t) ∧
    (∃ f, exec (.csrr 1 0x7C0#12) (placed 0x7C0020F3) = .fault f) :=
  ⟨by decide, by decide, ⟨_, rfl⟩, ⟨_, rfl⟩⟩

theorem witness_EnvironmentTurn :
    ({ State.reset with env := [⟨[7#32], false, [0], [31]⟩] } : State).env = ⟨[7#32], false, [0], [31]⟩ :: [] ∧
    State.reset.env = [] := by decide

theorem witness_PlacedWordIsFetched :
    (State.reset.setPc 0xFFFFC#32).canFetch ∧ decodeTableWord 32 0x7FF02FF3 = some (.csrr 31 0x7FF#12) := by decide

theorem witness_IllegalWordsFault :
    (placed 0x402081B3).canFetch ∧
    Memory.readWord (placed 0x402081B3).mem (placed 0x402081B3).pc.toNat = 0x402081B3#32 ∧
    0x402081B3#32 &&& 0x000FF07F#32 ≠ 0x00002073#32 ∧ 0x402081B3#32 &&& 0x00007FFF#32 ≠ 0x00001073#32 ∧
    0x402081B3#32 &&& 0xFE00707F#32 ≠ 0x00000033#32 ∧ 0x402081B3#32 &&& 0xFE00707F#32 ≠ 0x00007033#32 ∧
    0x402081B3#32 &&& 0xFE00707F#32 ≠ 0x00001033#32 ∧ 0x402081B3#32 &&& 0xFE00707F#32 ≠ 0x00005033#32 ∧
    0x402081B3#32 &&& 0x0000707F#32 ≠ 0x00000013#32 ∧ 0x402081B3#32 &&& 0x0000707F#32 ≠ 0x00002003#32 ∧
    0x402081B3#32 &&& 0x0000707F#32 ≠ 0x00002023#32 ∧ 0x402081B3#32 &&& 0x0000707F#32 ≠ 0x00001063#32 := by decide

/-- One running state for each clause, at the values where clauses meet: an address that is both misaligned and
out of range, the first address and the first CSR number outside a range. -/
theorem witness_FaultsAreExactlyThese :
    ([(State.reset.setPc 0x100001#32, .misalignedFetch 0x100001#32),
      (State.reset.setPc 0x100000#32, .fetchOutOfRange 0x100000#32),
      (placed 0x402081B3, .illegalInstruction 0x200#32 0x402081B3#32),
      ((placed 0x00832283).setReg 6 0xFFFF9#32, .misalignedAccess 0x100001#32),
      ((placed 0x00742623).setReg 8 0xFFFF4#32, .addressOutOfRange 0x100000#32),
      ((placed 0x00419163).setReg 3 1#32, .misalignedBranchTarget 0x200#32 0x202#32),
      (placed 0x7DF020F3, .unsupportedCSR 0x7DF#12),
      (placed 0x7C0020F3, .undefinedCSRAccess 0x7C0#12 .read),
      (placed 0xFC009073, .undefinedCSRAccess 0xFC0#12 .write)] : List (State × Fault)).all
      (fun p => decide (p.1.status = .running ∧ faultOf (step p.1) = some p.2)) = true := by decide

theorem witness_FaultIsPreciseAndTerminal :
    step (placed 0) = .fault (.illegalInstruction 0x200#32 0#32) ∧
    (State.reset.setStatus (.faulted (.misalignedFetch 1#32))).status = .faulted (.misalignedFetch 1#32) :=
  ⟨rfl, rfl⟩

theorem witness_EveryStepKeepsTheInvariant : (placed 0x13).Inv ∧ ∃ t, step (placed 0x13) = .next t := by
  exact ⟨by decide, _, rfl⟩

/-- Two machines that differ in the manager's words, the accelerator and the environment. -/
theorem witness_EnvironmentIsSeenOnlyThroughCsrs :
    ∃ s u : State, s ≠ u ∧ s.regs = u.regs ∧ s.pc = u.pc ∧ s.mem = u.mem ∧ s.status = u.status ∧
      (∀ i, fetch s = .ok i → usesCsr i = false) ∧ ∃ t, step s = .next t := by
  refine ⟨placed 0x13, { placed 0x13 with m2p := [7#32], p2mReady := false, xcelHistory := [.read 3] }, by decide,
    rfl, rfl, rfl, rfl, fun i h => ?_, _, rfl⟩
  have : fetch (placed 0x13) = .ok (.addi 0 0 0#12) := by decide
  rw [this] at h
  cases h
  rfl

/-- An image with one word, at the reset vector. -/
def oneWord : BootParams where
  initRegs := Vector.replicate 31 5#32
  initMem := [(⟨0x80, by decide⟩, 0x13#32)]
  m2p := []
  p2mReady := true
  xcelReadStalls := []
  xcelWriteStalls := []
  env := []

theorem witness_Boot :
    oneWord.initMem = [] ++ (⟨0x80, by decide⟩, 0x13#32) :: [] ∧ (∀ e ∈ oneWord.initMem, 0x1FC / 4 ≠ e.1.val) ∧
    decodeWord (Memory.readByte (State.boot oneWord).mem 0x203 ++ Memory.readByte (State.boot oneWord).mem 0x202 ++
      Memory.readByte (State.boot oneWord).mem 0x201 ++ Memory.readByte (State.boot oneWord).mem 0x200) =
      .ok (.addi 0 0 0#12) :=
  ⟨rfl, by simp [oneWord], by decide⟩

theorem witness_RunEnds : ∃ t, runUntil (.atAddress 0x204#32) 1 (placed 0x13) = .ended t := ⟨_, rfl⟩

/-- A Faulted machine that stands at the end address, one whose output is complete, and a run that faults. -/
theorem witness_FaultedRunIsNoSuccessfulEnd :
    (EndOfRun.atAddress 0x200#32).holds (placed 0).afterStep = true ∧
    (EndOfRun.afterWords 0).holds (placed 0).afterStep = true ∧
    (placed 0).afterStep.status = .faulted (.illegalInstruction 0x200#32 0#32) ∧
    (placed 0).status = .running ∧ (EndOfRun.atAddress 0x204#32).holds (placed 0) = false ∧
    step (placed 0) = .fault (.illegalInstruction 0x200#32 0#32) ∧
    runUntil (.atAddress 0x204#32) 1 (placed 0) = .faulted (placed 0).afterStep := by
  exact ⟨by decide, by decide, by decide, by decide, by decide, rfl, rfl⟩

end Sys2Proof.Tests
end

section
/-! Steps and runs: what a step answers in each case of R7, that no instruction is refused, what recording a
fault does (R8), and that a run which is over stays over (R127). -/

namespace Sys2Proof.Machine

variable {s t : State} {i : Instr} {f : Fault}

/-! ### One step, case by case (R7, R8) -/

theorem step_of_faulted (h : s.status = .faulted f) : step s = .fault f := by
  simp [step, h, raise]

theorem step_of_fetch_error (hs : s.status = .running) (hf : fetch s = .error f) : step s = .fault f := by
  simp [step, hs, hf, raise]

theorem step_of_exec_next (hs : s.status = .running) (hf : fetch s = .ok i) (he : exec i s = .next t) :
    step s = .next t.environmentTurn := by
  simp [step, hs, hf, he]

theorem step_of_exec_fault (hs : s.status = .running) (hf : fetch s = .ok i) (he : exec i s = .fault f) :
    step s = .fault f := by
  simp [step, hs, hf, he]

theorem fetch_of_decodeWord (h : s.canFetch) (hd : decodeWord (Memory.readWord s.mem s.pc.toNat) = .ok i) :
    fetch s = .ok i := by
  rw [fetch_of_canFetch h, hd]

/-! ### No instruction is refused (R2) -/

theorem exec_next_or_fault (i : Instr) (s : State) : (∃ t, exec i s = .next t) ∨ (∃ f, exec i s = .fault f) := by
  cases i with
  | csrr rd csr =>
    cases h : csrRead csr s with
    | done => exact .inl ⟨_, exec_csrr_of_done h rd⟩
    | stalled => exact .inl ⟨_, exec_csrr_of_stalled h rd⟩
    | faulted => exact .inr ⟨_, exec_csrr_of_faulted h rd⟩
  | csrw csr rs1 =>
    cases h : csrWrite csr (s.reg rs1) s with
    | done => exact .inl ⟨_, exec_csrw_of_done h⟩
    | stalled => exact .inl ⟨_, exec_csrw_of_stalled h⟩
    | faulted => exact .inr ⟨_, exec_csrw_of_faulted h⟩
  | add | and | sll | srl | addi => exact .inl ⟨_, rfl⟩
  | lw rd rs1 imm =>
    cases h : accessFault (s.reg rs1 + imm.signExtend 32) with
    | none => exact .inl ⟨_, exec_lw_of_ok h rd⟩
    | some => exact .inr ⟨_, exec_lw_of_fault h rd⟩
  | sw rs2 rs1 imm =>
    cases h : accessFault (s.reg rs1 + imm.signExtend 32) with
    | none => exact .inl ⟨_, exec_sw_of_ok h rs2⟩
    | some => exact .inr ⟨_, exec_sw_of_fault h rs2⟩
  | bne rs1 rs2 imm =>
    by_cases h : s.reg rs1 = s.reg rs2
    · exact .inl ⟨_, exec_bne_of_eq h imm⟩
    · cases ha : aligned (s.pc + imm.signExtend 32) with
      | true => exact .inl ⟨_, exec_bne_of_taken h ha⟩
      | false => exact .inr ⟨_, exec_bne_of_misaligned h ha⟩

theorem step_next_or_fault (s : State) : (∃ t, step s = .next t) ∨ (∃ f, step s = .fault f) := by
  cases hs : s.status with
  | faulted => exact .inr ⟨_, step_of_faulted hs⟩
  | running =>
    cases hf : fetch s with
    | error => exact .inr ⟨_, step_of_fetch_error hs hf⟩
    | ok i =>
      rcases exec_next_or_fault i s with ⟨t, he⟩ | ⟨f, he⟩
      · exact .inl ⟨_, step_of_exec_next hs hf he⟩
      · exact .inr ⟨_, step_of_exec_fault hs hf he⟩

/-! ### Recording a fault (R8, R26) -/

theorem State.afterStep_of_fault (h : step s = .fault f) : s.afterStep = s.setStatus (.faulted f) := by
  simp [State.afterStep, h]

theorem State.afterStep_of_faulted (h : s.status = .faulted f) : s.afterStep = s := by
  rw [State.afterStep_of_fault (step_of_faulted h), ← h]
  rfl

/-! ### The environment's turn (log 5) -/

theorem State.environmentTurn_of_move {m : EnvMove} {rest : List EnvMove} (h : s.env = m :: rest) :
    s.environmentTurn = { s.takeMove m with env := rest } := by
  simp [State.environmentTurn, h]

theorem State.environmentTurn_of_noMove (h : s.env = []) :
    s.environmentTurn = { s with clock := s.clock + 1 } := by
  simp [State.environmentTurn, h]

/-! ### Runs (R8, R127) -/

variable {e : EndOfRun}

theorem runVerdict_of_faulted (e : EndOfRun) (h : s.status = .faulted f) : runVerdict e s = some (.faulted s) := by
  simp [runVerdict, h]

theorem runVerdict_of_not_holds (hs : s.status = .running) (he : e.holds s = false) : runVerdict e s = none := by
  simp [runVerdict, hs, he]

/-- A run that ended or faulted does the same when it is given more steps. -/
theorem runUntil_of_le {o : RunOutcome} {n m : Nat} (h : runUntil e n s = o) (ho : ∀ t, o ≠ .unfinished t)
    (hnm : n ≤ m) : runUntil e m s = o := by
  induction n generalizing s m with
  | zero =>
    cases hv : runVerdict e s with
    | some o' => rwa [runUntil_of_verdict hv] at h ⊢
    | none => exact absurd (h.symm.trans (runUntil_zero_of_none hv)) (ho s)
  | succ n ih =>
    obtain ⟨m, rfl⟩ := Nat.exists_eq_add_one_of_ne_zero (Nat.ne_zero_of_lt hnm)
    cases hv : runVerdict e s with
    | some o' => rwa [runUntil_of_verdict hv] at h ⊢
    | none =>
      rw [runUntil_succ_of_none hv] at h ⊢
      cases hs : step s with
      | next t =>
        rw [hs] at h
        exact ih h (by omega)
      | fault => rwa [hs] at h
      | refused => rwa [hs] at h

/-- However many steps each is given, a run does not both fault and end (R8). -/
theorem runUntil_ne_ended_of_faulted {n : Nat} (h : runUntil e n s = .faulted t) (m : Nat) (u : State) :
    runUntil e m s ≠ .ended u := by
  intro hm
  have hf := runUntil_of_le h (by simp) (Nat.le_max_left n m)
  have he := runUntil_of_le hm (by simp) (Nat.le_max_right n m)
  exact RunOutcome.noConfusion (hf.symm.trans he)

theorem status_of_runVerdict_faulted (h : runVerdict e s = some (.faulted t)) : ∃ f, t.status = .faulted f := by
  rcases runVerdict_cases e s with ⟨hf, hv⟩ | ⟨-, -, hv⟩ | ⟨-, -, hv⟩ <;> rw [hv] at h <;> cases h
  exact hf

/-- The state a faulted run answers has its fault recorded (R8, R26). -/
theorem status_of_runUntil_faulted {n : Nat} (h : runUntil e n s = .faulted t) : ∃ f, t.status = .faulted f := by
  induction n generalizing s with
  | zero =>
    cases hv : runVerdict e s with
    | some o =>
      obtain rfl := (runUntil_of_verdict hv _).symm.trans h
      exact status_of_runVerdict_faulted hv
    | none => cases (runUntil_zero_of_none hv).symm.trans h
  | succ n ih =>
    cases hv : runVerdict e s with
    | some o =>
      obtain rfl := (runUntil_of_verdict hv _).symm.trans h
      exact status_of_runVerdict_faulted hv
    | none =>
      rw [runUntil_succ_of_none hv] at h
      cases hs : step s with
      | next => rw [hs] at h; exact ih h
      | fault f => rw [hs] at h; cases h; exact ⟨f, rfl⟩
      | refused => rw [hs] at h; cases h

end Sys2Proof.Machine
end

section
/-! The statements on what a step and a run are (spec/00_scope.md R2, R6 to R8). -/

namespace Sys2Proof.Machine

/-- Settles O37, by the two cases of the fetched instruction's execution. -/
theorem stepRunsTheFetchedInstruction : Obligations.StepRunsTheFetchedInstruction := by
  intro s i hc hd
  have hf := fetch_of_decodeWord hc hd
  obtain ⟨hs, -, -⟩ := hc
  exact ⟨fun _ => step_of_exec_next hs hf, fun _ => step_of_exec_fault hs hf⟩

/-- Settles O38: the frame holds field by field, and the rest is read off the turn with and without a move. -/
theorem environmentTurnReachesOnlyItsOwn : Obligations.EnvironmentTurnReachesOnlyItsOwn := by
  intro s
  refine ⟨⟨s.environmentTurn_regs, s.environmentTurn_pc, s.environmentTurn_mem, s.environmentTurn_p2m,
    s.environmentTurn_xcelHistory, s.environmentTurn_status⟩, fun m rest h => ?_, fun h => ?_⟩
  · rw [State.environmentTurn_of_move h]
    exact ⟨rfl, rfl, rfl, rfl, rfl⟩
  · rw [State.environmentTurn_of_noMove h]
    exact ⟨rfl, rfl, rfl, rfl, h⟩

/-- Settles O42: the state after a faulting step is Faulted, and a Faulted state is its own next one. -/
theorem faultIsPreciseAndTerminal : Obligations.FaultIsPreciseAndTerminal := by
  refine ⟨fun s f h => ?_, fun s f h => ⟨step_of_faulted h, State.afterStep_of_faulted h⟩⟩
  have hs : s.afterStep.status = .faulted f := by rw [State.afterStep_of_fault h, State.setStatus_status]
  exact ⟨State.afterStep_of_fault h, step_of_faulted hs, State.afterStep_of_faulted hs⟩

/-- Settles O43, by the status, the fetch and the cases of each instruction's execution. -/
theorem everyStepGoesOnOrFaults : Obligations.EveryStepGoesOnOrFaults :=
  step_next_or_fault

/-- Settles O50: a Faulted state's verdict is final, and a run that faulted does so at every larger fuel. -/
theorem faultedRunIsNoSuccessfulEnd : Obligations.FaultedRunIsNoSuccessfulEnd := by
  refine fun e s => ⟨fun n f h => ?_, fun n f hs he h => ?_, fun n t h => ?_⟩
  · exact runUntil_of_verdict (runVerdict_of_faulted e h) n
  · rw [runUntil_succ_of_none (runVerdict_of_not_holds hs he), h]
    rfl
  · exact ⟨status_of_runUntil_faulted h, runUntil_ne_ended_of_faulted h⟩

end Sys2Proof.Machine
end

section
/-! The CSR numbers (R14), the image a loader leaves in memory (R122), and what an instruction and a step that
answer a next state leave of each part of the state: registers, FIFOs, memory, pc, environment, fault record. -/

namespace Sys2Proof

/-! ### CSR numbers (R14) -/

/-- `0x7E0` to `0x7FF` are the numbers whose upper seven bits are those of `0x7E0`. -/
theorem extractLsb'_eq_xcelreg_iff (n : CsrNumber) :
    n.extractLsb' 5 7 = 0b0111111#7 ↔ 0x7E0 ≤ n.toNat ∧ n.toNat ≤ 0x7FF := by
  simp only [← BitVec.toNat_inj, BitVec.extractLsb'_toNat, Nat.shiftRight_eq_div_pow, BitVec.toNat_ofNat]
  omega

@[simp] theorem csrNumber_xcelreg_toNat (k : XcelReg) : (csrNumber (.xcelreg k)).toNat = 0x7E0 + k.val := by
  simp only [csrNumber, BitVec.toNat_add, BitVec.toNat_ofNat]
  omega

/-- R17. -/
theorem csrOfNumber_of_toNat_eq {n : CsrNumber} {k : XcelReg} (h : n.toNat = 0x7E0 + k.val) :
    csrOfNumber n = some (.xcelreg k) := by
  have h7 : n ≠ 0x7C0#12 := by rintro rfl; rw [BitVec.toNat_ofNat] at h; omega
  have hf : n ≠ 0xFC0#12 := by rintro rfl; rw [BitVec.toNat_ofNat] at h; omega
  have hx : n.extractLsb' 5 7 = 0b0111111#7 := (extractLsb'_eq_xcelreg_iff n).2 (by omega)
  have hk : (n.extractLsb' 0 5).toFin = k := by
    apply Fin.ext
    simp only [BitVec.val_toFin, BitVec.extractLsb'_toNat, Nat.shiftRight_zero]
    omega
  rw [csrOfNumber, if_neg h7, if_neg hf, if_pos hx, hk]

@[simp] theorem csrOfNumber_csrNumber (c : Csr) : csrOfNumber (csrNumber c) = some c := by
  cases c with
  | proc2mngr | mngr2proc => rfl
  | xcelreg k => exact csrOfNumber_of_toNat_eq (csrNumber_xcelreg_toNat k)

theorem csrOfNumber_eq_none_iff (n : CsrNumber) : csrOfNumber n = none ↔ ¬ Machine.isCsrNumber n := by
  unfold csrOfNumber Machine.isCsrNumber
  rw [← extractLsb'_eq_xcelreg_iff]
  split_ifs <;> simp_all

theorem csrNumber_of_csrOfNumber {n : CsrNumber} {c : Csr} (h : csrOfNumber n = some c) : csrNumber c = n := by
  by_cases hn : Machine.isCsrNumber n
  · obtain ⟨c', rfl⟩ : ∃ c', csrNumber c' = n := by
      rcases hn with rfl | rfl | hx
      · exact ⟨.proc2mngr, rfl⟩
      · exact ⟨.mngr2proc, rfl⟩
      · refine ⟨.xcelreg ⟨n.toNat - 0x7E0, by omega⟩, BitVec.eq_of_toNat_eq ?_⟩
        rw [csrNumber_xcelreg_toNat]
        dsimp only
        omega
    rw [csrOfNumber_csrNumber] at h
    rw [Option.some.inj h]
  · rw [(csrOfNumber_eq_none_iff n).2 hn] at h
    cases h

/-- The register an instruction may write, its `rd` (R10). -/
def Instr.destination : Instr → Option Reg
  | .csrr rd _ | .add rd _ _ | .and rd _ _ | .sll rd _ _ | .srl rd _ _ | .addi rd _ _ | .lw rd _ _ => some rd
  | .csrw .. | .sw .. | .bne .. => none

namespace Machine

variable {i : Instr} {s t : State}

/-! ### Memory after loading an image (R122) -/

/-- The last entry of an image is written last, over what the others have left. -/
theorem Memory.load_concat (image : List (WordIndex × Word)) (e : WordIndex × Word) :
    Memory.load (image ++ [e]) = Memory.writeWord (Memory.load image) (4 * e.1.val) e.2 := by
  simp [Memory.load]

/-- A byte of no loaded word is the free value (log 2). -/
theorem Memory.readByte_load_outside {image : List (WordIndex × Word)} {a : Nat}
    (h : ∀ e ∈ image, a / 4 ≠ e.1.val) : Memory.readByte (Memory.load image) a = Config.initMem a := by
  induction image using List.reverseRecOn with
  | nil => rfl
  | append_singleton image e ih =>
    have he : a / 4 ≠ e.1.val := h e (by simp)
    rw [Memory.load_concat, Memory.readByte_writeWord_outside _ _ _ _ (by omega)]
    exact ih fun d hd => h d (by simp [hd])

/-- Of two entries for one word the later holds (D15). -/
theorem Memory.readWord_load (before after : List (WordIndex × Word)) (j : WordIndex) (w : Word)
    (h : ∀ e ∈ after, e.1 ≠ j) :
    Memory.readWord (Memory.load (before ++ (j, w) :: after)) (4 * j.val) = w := by
  induction after using List.reverseRecOn with
  | nil => rw [Memory.load_concat, Memory.readWord_writeWord]
  | append_singleton after e ih =>
    have he : e.1.val ≠ j.val := fun hej => h e (by simp) (Fin.ext hej)
    rw [← List.cons_append, ← List.append_assoc, Memory.load_concat,
      Memory.readWord_writeWord_outside _ _ _ _ (by omega)]
    exact ih fun d hd => h d (by simp [hd])

/-! ### CSR instructions that go on -/

/-- The dequeue of R72, of whatever word stands at the head. -/
theorem csrRead_mngr2proc_of_cons {v : Word} {rest : List Word} (h : s.m2p = v :: rest) :
    csrRead 0xFC0#12 s = .done (v, s.setM2p rest) := by
  have hc : csrOfNumber 0xFC0#12 = some .mngr2proc := csrOfNumber_csrNumber .mngr2proc
  simp only [csrRead, hc, dequeueM2p, h]

/-- A CSRR that goes on has stalled or has made its access and written `rd` (R70, R74). -/
theorem exec_csrr_next {rd : Reg} {csr : CsrNumber} (h : exec (.csrr rd csr) s = .next t) :
    t = s ∨ ∃ v u, csrRead csr s = .done (v, u) ∧ t = (u.setReg rd v).setPc (u.pc + 4#32) := by
  cases hr : csrRead csr s with
  | done a => rw [exec_csrr_of_done hr] at h; cases h; exact .inr ⟨_, _, rfl, rfl⟩
  | stalled => rw [exec_csrr_of_stalled hr] at h; cases h; exact .inl rfl
  | faulted f => rw [exec_csrr_of_faulted hr] at h; cases h

/-- A CSRW that goes on has stalled or has made its access (R71, R74). -/
theorem exec_csrw_next {csr : CsrNumber} {rs1 : Reg} (h : exec (.csrw csr rs1) s = .next t) :
    t = s ∨ ∃ u, csrWrite csr (s.reg rs1) s = .done u ∧ t = u.setPc (u.pc + 4#32) := by
  cases hw : csrWrite csr (s.reg rs1) s with
  | done u => rw [exec_csrw_of_done hw] at h; cases h; exact .inr ⟨_, rfl, rfl⟩
  | stalled => rw [exec_csrw_of_stalled hw] at h; cases h; exact .inl rfl
  | faulted f => rw [exec_csrw_of_faulted hw] at h; cases h

/-- An LW that goes on has written `rd` and advanced the `pc` only (R90). -/
theorem exec_lw_next {rd rs1 : Reg} {imm : BitVec 12} (h : exec (.lw rd rs1 imm) s = .next t) :
    ∃ v, t = (s.setReg rd v).setPc (s.pc + 4#32) := by
  cases ha : accessFault (s.reg rs1 + imm.signExtend 32) with
  | none => rw [exec_lw_of_ok ha] at h; cases h; exact ⟨_, rfl⟩
  | some f => rw [exec_lw_of_fault ha] at h; cases h

/-- An SW that goes on has changed memory and the `pc` only (R91). -/
theorem exec_sw_next {rs2 rs1 : Reg} {imm : BitVec 12} (h : exec (.sw rs2 rs1 imm) s = .next t) :
    ∃ m, t = (s.setMem m).setPc (s.pc + 4#32) := by
  cases ha : accessFault (s.reg rs1 + imm.signExtend 32) with
  | none => rw [exec_sw_of_ok ha] at h; cases h; exact ⟨_, rfl⟩
  | some f => rw [exec_sw_of_fault ha] at h; cases h

/-- A BNE that goes on has changed the `pc` only (R95). -/
theorem exec_bne_next {rs1 rs2 : Reg} {imm : BitVec 13} (h : exec (.bne rs1 rs2 imm) s = .next t) :
    ∃ a, t = s.setPc a := by
  by_cases he : s.reg rs1 = s.reg rs2
  · rw [exec_bne_of_eq he] at h; cases h; exact ⟨_, rfl⟩
  · cases ha : aligned (s.pc + imm.signExtend 32) with
    | true => rw [exec_bne_of_taken he ha] at h; cases h; exact ⟨_, rfl⟩
    | false => rw [exec_bne_of_misaligned he ha] at h; cases h

/-! ### What an instruction that goes on leaves of each part of the state -/

/-- An instruction that reaches no CSR leaves everything outside the registers, `pc` and memory as it was. -/
theorem exec_sameOutside (hi : usesCsr i = false) (h : exec i s = .next t) : SameOutside s t := by
  cases i with
  | csrr | csrw => cases hi
  | add | and | sll | srl | addi => cases h; simp [SameOutside]
  | lw => obtain ⟨v, rfl⟩ := exec_lw_next h; simp [SameOutside]
  | sw => obtain ⟨m, rfl⟩ := exec_sw_next h; simp [SameOutside]
  | bne => obtain ⟨a, rfl⟩ := exec_bne_next h; simp [SameOutside]

/-- The registers stay, or the one cell of `rd` is written (R10). -/
theorem exec_regs_cases (h : exec i s = .next t) :
    t.regs = s.regs ∨ ∃ rd v, i.destination = some rd ∧ t.regs = writeCell s.regs rd v := by
  cases i with
  | csrr rd csr =>
    rcases exec_csrr_next h with rfl | ⟨v, u, hr, rfl⟩
    · exact .inl rfl
    · rcases csrRead_done hr with ⟨-, rest, -, rfl⟩ | ⟨k, -, -, -, rfl⟩ <;> exact .inr ⟨rd, v, rfl, rfl⟩
  | csrw csr rs1 =>
    rcases exec_csrw_next h with rfl | ⟨u, hw, rfl⟩
    · exact .inl rfl
    · rcases csrWrite_done hw with ⟨-, -, rfl⟩ | ⟨k, -, -, rfl⟩ <;> exact .inl rfl
  | add | and | sll | srl | addi => cases h; exact .inr ⟨_, _, rfl, rfl⟩
  | lw => obtain ⟨v, rfl⟩ := exec_lw_next h; exact .inr ⟨_, v, rfl, rfl⟩
  | sw => obtain ⟨m, rfl⟩ := exec_sw_next h; exact .inl rfl
  | bne => obtain ⟨a, rfl⟩ := exec_bne_next h; exact .inl rfl

/-- A register that changes is the instruction's `rd` (R10). -/
theorem destination_of_exec_reg_ne {r : Reg} (h : exec i s = .next t) (hr : t.reg r ≠ s.reg r) :
    i.destination = some r := by
  rcases exec_regs_cases h with he | ⟨rd, v, hd, he⟩
  · exact absurd (congrArg (readCell · r) he) hr
  · refine hd.trans (congrArg some ?_)
    by_contra hrd
    refine hr ?_
    rw [State.reg, he, readCell_writeCell, if_neg fun hc => hrd hc.1.symm]
    rfl

/-- `p2m` stays, or a CSRW to 0x7C0 has appended its register (R16, R73). -/
theorem exec_p2m_cases (h : exec i s = .next t) :
    t.p2m = s.p2m ∨
      ∃ rs1, i = .csrw 0x7C0#12 rs1 ∧ s.p2mReady = true ∧ t.p2m = s.p2m ++ [s.reg rs1] := by
  cases i with
  | csrr rd csr =>
    rcases exec_csrr_next h with rfl | ⟨v, u, hr, rfl⟩
    · exact .inl rfl
    · rcases csrRead_done hr with ⟨-, rest, -, rfl⟩ | ⟨k, -, -, -, rfl⟩ <;> exact .inl rfl
  | csrw csr rs1 =>
    rcases exec_csrw_next h with rfl | ⟨u, hw, rfl⟩
    · exact .inl rfl
    · rcases csrWrite_done hw with ⟨hc, hready, rfl⟩ | ⟨k, -, -, rfl⟩
      · obtain rfl := csrNumber_of_csrOfNumber hc
        exact .inr ⟨rs1, rfl, hready, rfl⟩
      · exact .inl rfl
  | add | and | sll | srl | addi | lw | sw | bne =>
    obtain ⟨-, hp2m, -⟩ := exec_sameOutside rfl h
    exact .inl hp2m

/-- `m2p` stays, or a CSRR from 0xFC0 has taken its head (R15, R72). -/
theorem exec_m2p_cases (h : exec i s = .next t) :
    t.m2p = s.m2p ∨ ∃ rd v, i = .csrr rd 0xFC0#12 ∧ s.m2p = v :: t.m2p := by
  cases i with
  | csrr rd csr =>
    rcases exec_csrr_next h with rfl | ⟨v, u, hr, rfl⟩
    · exact .inl rfl
    · rcases csrRead_done hr with ⟨hc, rest, hm, rfl⟩ | ⟨k, -, -, -, rfl⟩
      · obtain rfl := csrNumber_of_csrOfNumber hc
        exact .inr ⟨rd, v, rfl, hm⟩
      · exact .inl rfl
  | csrw csr rs1 =>
    rcases exec_csrw_next h with rfl | ⟨u, hw, rfl⟩
    · exact .inl rfl
    · rcases csrWrite_done hw with ⟨-, -, rfl⟩ | ⟨k, -, -, rfl⟩ <;> exact .inl rfl
  | add | and | sll | srl | addi | lw | sw | bne =>
    obtain ⟨hm2p, -⟩ := exec_sameOutside rfl h
    exact .inl hm2p

/-- No instruction moves the environment or records a fault (log 5, R26); memory stays, or one word is stored at
an address that the checks of R92 let through; the `pc` stays, advances by 4, or goes to an aligned branch target
(R95, R96). -/
theorem exec_env_status_mem_pc (h : exec i s = .next t) :
    t.env = s.env ∧ t.status = s.status ∧
    (t.mem = s.mem ∨ ∃ a v, aligned a = true ∧ inRange a = true ∧ t.mem = Memory.writeWord s.mem a.toNat v) ∧
    (t.pc = s.pc ∨ t.pc = s.pc + 4#32 ∨ aligned t.pc = true) := by
  rcases exec_next_cases h with rfl | ⟨_, _, rfl⟩ | ⟨a, v, ha, hr, rfl⟩ | rfl | ⟨_, ha, rfl⟩ | ⟨_, _, _, -, rfl⟩ |
    ⟨_, _, rfl⟩ | ⟨_, -, rfl⟩ | ⟨_, _, rfl⟩
  · exact ⟨rfl, rfl, .inl rfl, .inl rfl⟩
  · exact ⟨rfl, rfl, .inl rfl, .inr (.inl rfl)⟩
  · exact ⟨rfl, rfl, .inr ⟨a, v, ha, hr, rfl⟩, .inr (.inl rfl)⟩
  · exact ⟨rfl, rfl, .inl rfl, .inr (.inl rfl)⟩
  · exact ⟨rfl, rfl, .inl rfl, .inr (.inr ha)⟩
  all_goals exact ⟨rfl, rfl, .inl rfl, .inr (.inl rfl)⟩

/-! ### The invariant (R13, R20, R30, R26) -/

theorem aligned_add_four {a : Word} (h : aligned a = true) : aligned (a + 4#32) = true := by
  rw [aligned_iff] at h ⊢
  rw [BitVec.toNat_add, BitVec.toNat_ofNat]
  omega

theorem exec_keeps_wf (hs : Memory.wf s.mem) (h : exec i s = .next t) : Memory.wf t.mem := by
  obtain ⟨-, -, he | ⟨a, v, ha, hr, he⟩, -⟩ := exec_env_status_mem_pc h <;> rw [he]
  · exact hs
  · exact Memory.wf_writeWord hs (word_fits ha hr)

theorem exec_keeps_aligned (hs : aligned s.pc = true) (h : exec i s = .next t) : aligned t.pc = true := by
  obtain ⟨-, -, -, he | he | ha⟩ := exec_env_status_mem_pc h
  · rwa [he]
  · rw [he]
    exact aligned_add_four hs
  · exact ha

theorem exec_keeps_inv (hs : s.Inv) (h : exec i s = .next t) : t.Inv := by
  obtain ⟨hmem, hpc, hrun⟩ := hs
  obtain ⟨-, hstatus, -⟩ := exec_env_status_mem_pc h
  exact ⟨exec_keeps_wf hmem h, exec_keeps_aligned hpc h, hstatus.trans hrun⟩

theorem State.environmentTurn_inv (hs : s.Inv) : s.environmentTurn.Inv := by
  simpa [State.Inv] using hs

theorem step_keeps_inv (hs : s.Inv) (h : step s = .next t) : t.Inv := by
  obtain ⟨-, i, u, -, he, rfl⟩ := step_next h
  exact State.environmentTurn_inv (exec_keeps_inv hs he)

/-! ### The FIFOs along steps (R21, R111, R112) -/

theorem step_env (h : step s = .next t) : t.env = s.env.tail := by
  obtain ⟨-, i, u, -, he, rfl⟩ := step_next h
  obtain ⟨henv, -⟩ := exec_env_status_mem_pc he
  rw [State.environmentTurn_env, henv]

/-- A step leaves `p2m` with at most one word more, at its tail. -/
theorem step_p2m (h : step s = .next t) : ∃ written, written.length ≤ 1 ∧ t.p2m = s.p2m ++ written := by
  obtain ⟨-, i, u, -, he, rfl⟩ := step_next h
  rw [State.environmentTurn_p2m]
  rcases exec_p2m_cases he with hp | ⟨rs1, -, -, hp⟩
  · exact ⟨[], by simp, by simp [hp]⟩
  · exact ⟨[s.reg rs1], by simp, hp⟩

/-- A step takes at most the head of `m2p`; then the words of the environment's next move arrive. -/
theorem step_m2p (h : step s = .next t) :
    ∃ taken, taken.length ≤ 1 ∧ s.m2p ++ (s.env.take 1).flatMap EnvMove.deliver = taken ++ t.m2p := by
  obtain ⟨-, i, u, -, he, rfl⟩ := step_next h
  obtain ⟨henv, -⟩ := exec_env_status_mem_pc he
  have harrive : u.environmentTurn.m2p = u.m2p ++ (s.env.take 1).flatMap EnvMove.deliver := by
    rw [State.environmentTurn_m2p, henv]
    cases s.env <;> simp
  rw [harrive]
  rcases exec_m2p_cases he with hm | ⟨rd, v, -, hm⟩
  · exact ⟨[], by simp, by simp [hm]⟩
  · exact ⟨[v], by simp, by simp [hm]⟩

theorem steps_succ_next {k : Nat} (h : steps (k + 1) s = .next t) : ∃ u, step s = .next u ∧ steps k u = .next t := by
  rw [steps] at h
  cases hs : step s with
  | next u => rw [hs] at h; exact ⟨u, rfl, h⟩
  | fault => rw [hs] at h; cases h
  | refused => rw [hs] at h; cases h

theorem steps_p2m {k : Nat} (h : steps k s = .next t) :
    ∃ written, written.length ≤ k ∧ t.p2m = s.p2m ++ written := by
  induction k generalizing s with
  | zero => cases h; exact ⟨[], by simp, by simp⟩
  | succ k ih =>
    obtain ⟨u, hstep, hsteps⟩ := steps_succ_next h
    obtain ⟨w, hw, hu⟩ := step_p2m hstep
    obtain ⟨w', hw', ht⟩ := ih hsteps
    exact ⟨w ++ w', by rw [List.length_append]; omega, by rw [ht, hu, List.append_assoc]⟩

theorem steps_m2p {k : Nat} (h : steps k s = .next t) :
    ∃ taken, taken.length ≤ k ∧ s.m2p ++ (s.env.take k).flatMap EnvMove.deliver = taken ++ t.m2p := by
  induction k generalizing s with
  | zero => cases h; exact ⟨[], by simp, by simp⟩
  | succ k ih =>
    obtain ⟨u, hstep, hsteps⟩ := steps_succ_next h
    obtain ⟨w, hw, hu⟩ := step_m2p hstep
    obtain ⟨w', hw', ht⟩ := ih hsteps
    have hsplit : s.env.take (k + 1) = s.env.take 1 ++ u.env.take k := by
      rw [step_env hstep]
      cases s.env <;> simp
    refine ⟨w ++ w', by rw [List.length_append]; omega, ?_⟩
    calc s.m2p ++ (s.env.take (k + 1)).flatMap EnvMove.deliver
        = (s.m2p ++ (s.env.take 1).flatMap EnvMove.deliver) ++ (u.env.take k).flatMap EnvMove.deliver := by
          rw [hsplit, List.flatMap_append, List.append_assoc]
      _ = w ++ (u.m2p ++ (u.env.take k).flatMap EnvMove.deliver) := by rw [hu, List.append_assoc]
      _ = w ++ w' ++ t.m2p := by rw [ht, List.append_assoc]

end Machine

end Sys2Proof
end

section
/-! The statements on the state: registers, CSR numbers, FIFOs, the image, the invariant (spec/10_state.md). -/

namespace Sys2Proof.Machine

/-- Settles O35, by induction on the number of steps, for each FIFO from what one step does to it. -/
theorem fifosKeepOrderAlongEveryRun : Obligations.FifosKeepOrderAlongEveryRun :=
  fun _ _ _ h => ⟨steps_p2m h, steps_m2p h⟩

/-- Settles O44: each part of the invariant is kept by the instruction and then by the environment's turn. -/
theorem everyStepKeepsTheInvariant : Obligations.EveryStepKeepsTheInvariant :=
  fun _ _ => step_keeps_inv

/-- Settles O9: the number of a CSR names it, and the numbers that name none are those outside the 34. -/
theorem csrNumbersAreThirtyFour : Obligations.CsrNumbersAreThirtyFour :=
  ⟨csrOfNumber_csrNumber, fun _ _ => csrNumber_of_csrOfNumber, csrOfNumber_eq_none_iff, rfl, rfl,
    csrNumber_xcelreg_toNat⟩

/-- Settles O11: read after write, and that a register which changes is the instruction's `rd`. -/
theorem generalRegistersHoldWhatIsWritten : Obligations.GeneralRegistersHoldWhatIsWritten := by
  refine ⟨fun s r v hr => ?_, fun s r q v hq => ?_, fun _ => rfl, fun i s t r h hr => ?_⟩
  · rw [State.reg_setReg, if_pos ⟨rfl, hr⟩]
  · rw [State.reg_setReg, if_neg fun hc => hq hc.1]
  · have hd := destination_of_exec_reg_ne h hr
    cases i with
    | csrw | sw | bne => cases hd
    | add _ a b | and _ a b | sll _ a b | srl _ a b => cases hd; exact .inl ⟨a, b, by simp⟩
    | addi _ a imm | lw _ a imm => cases hd; exact .inr (.inl ⟨a, imm, by simp⟩)
    | csrr => cases hd; exact .inr (.inr ⟨_, rfl⟩)

/-- Settles O12: a write to x0 leaves the state, so what is left of each instruction is its other effects. -/
theorem zeroRegisterDiscardsWrites : Obligations.ZeroRegisterDiscardsWrites := by
  refine ⟨fun s v => ⟨rfl, s.setReg_zero v⟩, fun s rs1 rs2 imm => ⟨rfl, rfl, rfl, rfl, rfl, fun h => ?_,
    fun f h => exec_lw_of_fault h 0⟩, fun s v rest h => ?_⟩
  · rw [exec_lw_of_ok h, State.setReg_zero]
  · rw [exec_csrr_of_done (csrRead_mngr2proc_of_cons h), State.setReg_zero, State.setM2p_pc]

/-- Settles O36: each FIFO stays but for its one CSR instruction, with that instruction's effect. -/
theorem fifosChangeOnlyThroughTheirCsr : Obligations.FifosChangeOnlyThroughTheirCsr :=
  fun _ _ _ h => ⟨(exec_p2m_cases h).resolve_left, (exec_m2p_cases h).resolve_left⟩

/-- Settles O48, by induction on the image from its last entry. -/
theorem bootLoadsTheImage : Obligations.BootLoadsTheImage := by
  refine fun p => ⟨fun before after i w hp h => ?_, fun a h => Memory.readByte_load_outside h, fun _ => rfl⟩
  have hmem : (State.boot p).mem = Memory.load (before ++ (i, w) :: after) := congrArg Memory.load hp
  rw [hmem, Memory.readWord_load before after i w h]

/-- Settles O45: the loader leaves memory in canonical form, and the reset vector is aligned. -/
theorem runsStartInTheInvariant : Obligations.RunsStartInTheInvariant :=
  have hpc : aligned Config.resetVector = true := by decide
  ⟨⟨reset_mem_wf, hpc, rfl⟩, fun p => ⟨Memory.wf_load p.initMem, hpc, rfl⟩⟩

end Sys2Proof.Machine
end

section
/-! Decoding an encoded instruction (R54 to R57), the bytes of a word (R32), and what a store, a load and a placed
word do to memory (R34 to R36, R90 to R92). -/

namespace Sys2Proof

/-! ### The immediates of the formats (R54 to R56) -/

section
variable (rs2 rs1 rd : Reg) (funct3 : BitVec 3) (opcode : BitVec 7)

@[simp] theorem fieldImmI_encodeI (imm : BitVec 12) : fieldImmI (encodeI imm rs1 funct3 rd opcode) = imm := by
  ext j hj
  simp only [fieldImmI, encodeI, BitVec.getElem_extractLsb', BitVec.getLsbD_append]
  interval_cases j <;> simp

@[simp] theorem fieldCsr_encodeI (csr : CsrNumber) : fieldCsr (encodeI csr rs1 funct3 rd opcode) = csr :=
  fieldImmI_encodeI rs1 rd funct3 opcode csr

@[simp] theorem fieldImmS_encodeS (hi : BitVec 7) (lo : BitVec 5) :
    fieldImmS (encodeS hi rs2 rs1 funct3 lo opcode) = hi ++ lo := by
  refine BitVec.eq_of_getLsbD_eq fun j hj => ?_
  simp only [fieldImmS, encodeS, BitVec.getLsbD_append, BitVec.getLsbD_extractLsb']
  interval_cases j <;> simp

/-- The B-immediate's bits stand in the two `imm` fields in the order of R56. -/
theorem fieldImmB_encodeS (hi : BitVec 7) (lo : BitVec 5) :
    fieldImmB (encodeS hi rs2 rs1 funct3 lo opcode) =
      hi.extractLsb' 6 1 ++ lo.extractLsb' 0 1 ++ hi.extractLsb' 0 6 ++ lo.extractLsb' 1 4 ++ 0#1 := by
  refine BitVec.eq_of_getLsbD_eq fun j hj => ?_
  simp only [fieldImmB, encodeS, BitVec.getLsbD_append, BitVec.getLsbD_extractLsb']
  interval_cases j <;> simp

end

/-- R55: the two parts of an S-immediate make it. -/
theorem storeImmediate_of_parts (imm : BitVec 12) : imm.extractLsb' 5 7 ++ imm.extractLsb' 0 5 = imm := by
  ext j hj
  simp only [BitVec.getElem_append, BitVec.getElem_extractLsb']
  interval_cases j <;> simp

/-- R56: the fields of a `bne` give its offset back, when bit 0 of the offset is the constant zero. -/
theorem fieldImmB_encode_bne (rs1 rs2 : Reg) {imm : BitVec 13} (h : imm.getLsbD 0 = false) :
    fieldImmB (encode (.bne rs1 rs2 imm)) = imm := by
  rw [encode, fieldImmB_encodeS]
  ext j hj
  simp only [branchHi, branchLo, BitVec.getElem_append, BitVec.getElem_extractLsb', BitVec.getLsbD_append,
    BitVec.getLsbD_extractLsb']
  interval_cases j <;> simp_all

/-! ### Decode after encode (R57) -/

/-- R57: the word of an instruction is covered by the instruction's own row. -/
theorem encode_covered (i : Instr) : ∃ r ∈ opcodeTable, r.op = i.op ∧ r.covers (encode i) = true := by
  cases i with
  | csrr => exact Laws.EncodeRow.csrr _ _
  | csrw => exact Laws.EncodeRow.csrw _ _
  | add => exact Laws.EncodeRow.add _ _ _
  | and => exact Laws.EncodeRow.and _ _ _
  | sll => exact Laws.EncodeRow.sll _ _ _
  | srl => exact Laws.EncodeRow.srl _ _ _
  | addi => exact Laws.EncodeRow.addi _ _ _
  | lw => exact Laws.EncodeRow.lw _ _ _
  | sw => exact Laws.EncodeRow.sw _ _ _
  | bne => exact Laws.EncodeRow.bne _ _ _

/-- Every operand of a well-formed instruction is read back from its word. -/
theorem operandsOf_encode {i : Instr} (h : i.wellFormed = true) : operandsOf (encode i) i.op = i := by
  cases i with
  | csrr | csrw | add | and | sll | srl | addi | lw => simp [operandsOf, encode, Instr.op]
  | sw _ _ imm => simp [operandsOf, encode, Instr.op, storeImmediate_of_parts imm]
  | bne rs1 rs2 imm =>
    have himm : fieldImmB (encode (.bne rs1 rs2 imm)) = imm := fieldImmB_encode_bne rs1 rs2 (beq_iff_eq.1 h)
    rw [Instr.op, operandsOf, himm]
    simp [encode]

theorem decodeWord_encode {i : Instr} (h : i.wellFormed = true) : decodeWord (encode i) = .ok i := by
  obtain ⟨r, hr, hop, hcovers⟩ := encode_covered i
  rw [decodeWord_of_covers hr hcovers, hop, operandsOf_encode h]

/-! ### Table words -/

/-- The bytes of one word decode as that word does, with no byte left (R32, R50). -/
theorem decodeBytes_bytesOfWord (w : Word) : decodeBytes (bytesOfWord w) = (decodeWord w).map (·, []) := by
  simp only [bytesOfWord, decodeBytes, Machine.wordOfBytes_byteOf]
  cases decodeWord w <;> rfl

theorem decodeWord_of_decodeTableWord {nbits w : Nat} {i : Instr} (h : decodeTableWord nbits w = some i) :
    decodeWord (BitVec.ofNat 32 (w % 2 ^ nbits)) = .ok i := by
  rw [decodeTableWord, decodeBytes_bytesOfWord] at h
  cases hd : decodeWord (BitVec.ofNat 32 (w % 2 ^ nbits)) with
  | ok j => rw [hd] at h; cases h; rfl
  | error e => rw [hd] at h; cases h

/-! ### The bytes of a word (R32) -/

theorem byteOf_toNat (w : Word) (k : Nat) : (byteOf w k).toNat = w.toNat / 2 ^ (8 * k) % 2 ^ 8 := by
  rw [byteOf, BitVec.extractLsb'_toNat, Nat.shiftRight_eq_div_pow]

theorem toNat_eq_sum_bytes (w : Word) :
    w.toNat = (byteOf w 0).toNat + (byteOf w 1).toNat * 2 ^ 8 + (byteOf w 2).toNat * 2 ^ 16 +
      (byteOf w 3).toNat * 2 ^ 24 := by
  simp only [byteOf_toNat]
  omega

@[simp] theorem byteOf_wordOfBytes (b0 b1 b2 b3 : Byte) :
    byteOf (wordOfBytes b0 b1 b2 b3) 0 = b0 ∧ byteOf (wordOfBytes b0 b1 b2 b3) 1 = b1 ∧
    byteOf (wordOfBytes b0 b1 b2 b3) 2 = b2 ∧ byteOf (wordOfBytes b0 b1 b2 b3) 3 = b3 := by
  refine ⟨?_, ?_, ?_, ?_⟩ <;> ext j hj <;>
    simp only [byteOf, wordOfBytes, BitVec.getElem_extractLsb', BitVec.getLsbD_append] <;>
    interval_cases j <;> simp

namespace Machine

variable {s t : State}

/-- R32, R35: byte `k` of a written word stands at `a + k`. -/
theorem Memory.readByte_writeWord_inside (m : Memory) (a : Nat) (w : Word) {k : Nat} (hk : k < 4) :
    Memory.readByte (Memory.writeWord m a w) (a + k) = byteOf w k := by
  rw [Memory.readByte_writeWord]
  interval_cases k <;> simp

/-- R32, R34: byte `k` of a word read is the byte at `a + k`. -/
theorem Memory.byteOf_readWord (m : Memory) (a : Nat) {k : Nat} (hk : k < 4) :
    byteOf (Memory.readWord m a) k = Memory.readByte m (a + k) := by
  obtain ⟨h0, h1, h2, h3⟩ := byteOf_wordOfBytes (Memory.readByte m a) (Memory.readByte m (a + 1))
    (Memory.readByte m (a + 2)) (Memory.readByte m (a + 3))
  interval_cases k
  exacts [h0, h1, h2, h3]

/-- R34: a word read is its four bytes, the lowest address least significant. -/
theorem Memory.readWord_toNat (m : Memory) (a : Nat) :
    (Memory.readWord m a).toNat = (Memory.readByte m a).toNat + (Memory.readByte m (a + 1)).toNat * 2 ^ 8 +
      (Memory.readByte m (a + 2)).toNat * 2 ^ 16 + (Memory.readByte m (a + 3)).toNat * 2 ^ 24 := by
  rw [toNat_eq_sum_bytes]
  simp only [Memory.byteOf_readWord m a, Nat.reduceLT, Nat.add_zero]

/-! ### Stores and loads (R90 to R92) -/

/-- An SW that goes on has passed the checks of R92 and stored its register's word. -/
theorem exec_sw_stored {rs2 rs1 : Reg} {imm : BitVec 12} (h : exec (.sw rs2 rs1 imm) s = .next t) :
    accessFault (s.reg rs1 + imm.signExtend 32) = none ∧
    t = (s.setMem (Memory.writeWord s.mem (s.reg rs1 + imm.signExtend 32).toNat (s.reg rs2))).setPc
      (s.pc + 4#32) := by
  cases ha : accessFault (s.reg rs1 + imm.signExtend 32) with
  | none => rw [exec_sw_of_ok ha] at h; cases h; exact ⟨rfl, rfl⟩
  | some f => rw [exec_sw_of_fault ha] at h; cases h

/-- Memory stays, or an SW has stored its register's word at its effective address (R30, R37). -/
theorem exec_mem_cases {i : Instr} (h : exec i s = .next t) :
    t.mem = s.mem ∨ ∃ rs2 rs1 imm, i = .sw rs2 rs1 imm ∧
      t.mem = Memory.writeWord s.mem (effectiveAddress rs1 (immS imm) s).toNat (s.reg rs2) := by
  cases i with
  | csrr rd csr =>
    rcases exec_csrr_next h with rfl | ⟨v, u, hr, rfl⟩
    · exact .inl rfl
    · rcases csrRead_done hr with ⟨-, rest, -, rfl⟩ | ⟨k, -, -, -, rfl⟩ <;> exact .inl rfl
  | csrw csr rs1 =>
    rcases exec_csrw_next h with rfl | ⟨u, hw, rfl⟩
    · exact .inl rfl
    · rcases csrWrite_done hw with ⟨-, -, rfl⟩ | ⟨k, -, -, rfl⟩ <;> exact .inl rfl
  | add | and | sll | srl | addi => cases h; exact .inl rfl
  | lw => obtain ⟨v, rfl⟩ := exec_lw_next h; exact .inl rfl
  | sw => obtain ⟨-, rfl⟩ := exec_sw_stored h; exact .inr ⟨_, _, _, rfl, rfl⟩
  | bne => obtain ⟨a, rfl⟩ := exec_bne_next h; exact .inl rfl

/-- Two different addresses that pass the checks of R92 are those of words that do not overlap. -/
theorem words_disjoint {a b : Word} (ha : accessFault a = none) (hb : accessFault b = none) (hab : a ≠ b) :
    a.toNat + 4 ≤ b.toNat ∨ b.toNat + 4 ≤ a.toNat := by
  obtain ⟨ha, -⟩ := accessFault_none ha
  obtain ⟨hb, -⟩ := accessFault_none hb
  rw [aligned_iff] at ha hb
  have hne : a.toNat ≠ b.toNat := fun h => hab (BitVec.eq_of_toNat_eq h)
  omega

/-- What is read of admitted addresses after a word is written at one of them (R34, R35, R40). -/
theorem Memory.readWord_writeWord_of_admitted (m : Memory) {a b : Word} (ha : accessFault a = none)
    (hb : accessFault b = none) (v : Word) :
    Memory.readWord (Memory.writeWord m a.toNat v) b.toNat =
      if b = a then v else Memory.readWord m b.toNat := by
  split
  next hba => rw [hba, Memory.readWord_writeWord]
  next hba => rw [Memory.readWord_writeWord_outside _ _ _ _ (words_disjoint hb ha hba)]

/-- The register an LW has loaded is the word at its effective address (R90). -/
theorem exec_lw_loaded {rd rs1 : Reg} {imm : BitVec 12} (hrd : rd ≠ 0)
    (ha : accessFault (s.reg rs1 + imm.signExtend 32) = none) :
    ∃ u, exec (.lw rd rs1 imm) s = .next u ∧
      u.reg rd = Memory.readWord s.mem (s.reg rs1 + imm.signExtend 32).toNat := by
  refine ⟨_, exec_lw_of_ok ha rd, ?_⟩
  rw [State.setPc_reg, State.reg_setReg, if_pos ⟨rfl, hrd⟩]

/-! ### Placing a word (R36, log 10) -/

theorem State.withFetchWord_of_canFetch (h : s.canFetch) (nbits w : Nat) :
    s.withFetchWord nbits w =
      s.setMem (Memory.writeWord s.mem s.pc.toNat (BitVec.ofNat 32 (w % 2 ^ nbits))) := by
  obtain ⟨-, ha, hr⟩ := h
  simp [State.withFetchWord, ha, hr]

end Machine

end Sys2Proof
end

section
/-! The statements on memory: byte order, read after write, and who sees a store (spec/20_memory.md). -/

namespace Sys2Proof.Machine

/-- Settles O20: the byte at `a + k` is byte `k` of the word, after a write and in a read. -/
theorem memoryIsLittleEndian : Obligations.MemoryIsLittleEndian := by
  refine ⟨fun m a w k hk => ?_, fun m a k hk => ?_⟩
  · rw [Memory.readByte_writeWord_inside m a w hk, byteOf_toNat]
  · rw [← Memory.byteOf_readWord m a hk, byteOf_toNat]

/-- Settles O21, from the read-back of a word, the frame of its write, and the sum of its bytes. -/
theorem wordReadAfterWordWrite : Obligations.WordReadAfterWordWrite :=
  fun m a v => ⟨Memory.readWord_writeWord m a v, fun b => Memory.readByte_writeWord_outside m a b v,
    Memory.readWord_toNat m a⟩

/-- Settles O25: the memory of an SW is one word write, whose frame is every byte outside the word. -/
theorem onlyStoresChangeMemory : Obligations.OnlyStoresChangeMemory := by
  intro i s t h
  rcases exec_mem_cases h with hm | ⟨rs2, rs1, imm, rfl, hm⟩
  · exact .inl fun a => by rw [hm]
  · refine .inr ⟨rs2, rs1, imm, rfl, fun a ha => ?_⟩
    rw [hm, Memory.readByte_writeWord_outside _ _ _ _ ha]

/-- Settles O26: the load reads the stored word, or a word that does not overlap it. -/
theorem loadSeesLatestStore : Obligations.LoadSeesLatestStore := by
  intro s t rs2 rs1 rd base imm off h hrd hload
  obtain ⟨hstore, ht⟩ := exec_sw_stored h
  have hbase : t.reg base = s.reg base := by rw [ht, State.setPc_reg, State.setMem_reg]
  have hmem : t.mem = Memory.writeWord s.mem (s.reg rs1 + imm.signExtend 32).toNat (s.reg rs2) := by
    rw [ht, State.setPc_mem, State.setMem_mem]
  have hload' : accessFault (t.reg base + off.signExtend 32) = none := by rwa [hbase]
  obtain ⟨u, hu, hureg⟩ := exec_lw_loaded hrd hload'
  obtain ⟨v, hv, hvreg⟩ := exec_lw_loaded hrd hload
  refine ⟨u, v, hu, hv, ?_⟩
  rw [hureg, hvreg, hbase, hmem, Memory.readWord_writeWord_of_admitted _ hstore hload]

/-- Settles O27: the stored word is at the new `pc`, and it decodes to the instruction it encodes. -/
theorem fetchSeesEarlierStore : Obligations.FetchSeesEarlierStore := by
  intro s t rs2 rs1 imm i _ hfetch hstep haddr hword hi
  obtain ⟨hrun, j, u, hj, hexec, rfl⟩ := step_next hstep
  obtain rfl : Instr.sw rs2 rs1 imm = j := Except.ok.inj (hfetch.symm.trans hj)
  obtain ⟨hstore, rfl⟩ := exec_sw_stored hexec
  rw [haddr] at hstore ⊢
  obtain ⟨ha, hr⟩ := accessFault_none hstore
  refine fetch_of_decodeWord ⟨by simpa using hrun, by simpa using ha, by simpa using hr⟩ ?_
  simp only [State.environmentTurn_mem, State.environmentTurn_pc, State.setPc_mem, State.setPc_pc,
    State.setMem_mem, Memory.readWord_writeWord]
  rw [hword, decodeWord_encode hi]

/-- Settles O39: placing a word changes memory only, by one word write at the `pc`. -/
theorem placedWordIsFetched : Obligations.PlacedWordIsFetched := by
  intro s w i hs hw
  have hfetched := readWord_withFetchWord hs 32 w
  rw [State.withFetchWord_of_canFetch hs] at hfetched ⊢
  refine ⟨fetch_of_decodeWord hs ?_, fun _ => rfl, rfl, ⟨rfl, rfl, rfl, rfl, rfl, rfl, rfl, rfl, rfl⟩,
    fun a => Memory.readByte_writeWord_outside s.mem _ a _⟩
  rw [hfetched]
  exact decodeWord_of_decodeTableWord hw

end Sys2Proof.Machine
end

section
/-! Decoding (R57, R58): which words decode to a given instruction, that the fields of a word which decodes make
the word again (R51 to R53), the bits and the values of the operand fields (R54 to R56, R60, R61), and bytes (R50). -/

namespace Sys2Proof

/-! ### The row of a word (R57, R58) -/

@[simp] theorem op_operandsOf (w : Word) (op : Op) : (operandsOf w op).op = op := by cases op <;> rfl

/-- No two rows of the map are of one instruction. -/
theorem opcodeTable_op_injective : ∀ r ∈ opcodeTable, ∀ q ∈ opcodeTable, r.op = q.op → r = q := by decide

/-- A word that decodes is covered by a row of the map, which says its operands. -/
theorem decodeWord_ok {w : Word} {i : Instr} (h : decodeWord w = .ok i) :
    ∃ r ∈ opcodeTable, r.covers w = true ∧ operandsOf w r.op = i := by
  unfold decodeWord at h
  cases hop : decodeOp w with
  | none => rw [hop] at h; cases h
  | some op =>
    rw [hop] at h
    obtain ⟨r, hr, rfl, hcovers⟩ := decodeOp_some hop
    exact ⟨r, hr, hcovers, Except.ok.inj h⟩

/-- A word is a given instruction exactly when the instruction's row covers it and its fields are the operands. -/
theorem decodeWord_eq_ok_iff {r : Row} (hr : r ∈ opcodeTable) {i : Instr} (hi : r.op = i.op) (w : Word) :
    decodeWord w = .ok i ↔ w &&& r.mask = r.pattern ∧ operandsOf w r.op = i := by
  refine ⟨fun h => ?_, fun ⟨hm, hi⟩ => by rw [decodeWord_of_covers hr (beq_iff_eq.2 hm), hi]⟩
  obtain ⟨q, hq, hcovers, rfl⟩ := decodeWord_ok h
  obtain rfl := opcodeTable_op_injective r hr q hq (by rw [hi, op_operandsOf])
  exact ⟨beq_iff_eq.1 hcovers, rfl⟩

theorem operandsOf_of_decodeWord {w : Word} {i : Instr} (h : decodeWord w = .ok i) : operandsOf w i.op = i := by
  obtain ⟨r, -, -, rfl⟩ := decodeWord_ok h
  rw [op_operandsOf]

/-- R58. -/
theorem decodeWord_of_not_covered {w : Word} (h : ∀ r ∈ opcodeTable, w &&& r.mask ≠ r.pattern) :
    decodeWord w = .error (.illegalWord w) := by
  cases hop : decodeOp w with
  | none => rw [decodeWord, hop]
  | some op =>
    obtain ⟨r, hr, -, hcovers⟩ := decodeOp_some hop
    exact absurd (beq_iff_eq.1 hcovers) (h r hr)

/-! ### The immediates' bits (R54 to R56) -/

section
variable (w : Word)

/-- R54. -/
theorem fieldImmI_getLsbD {k : Nat} (hk : k < 12) : (fieldImmI w).getLsbD k = w.getLsbD (20 + k) := by
  simp [fieldImmI, hk]

/-- R55. -/
theorem fieldImmS_getLsbD {k : Nat} (hk : k < 12) :
    (fieldImmS w).getLsbD k = if 5 ≤ k then w.getLsbD (20 + k) else w.getLsbD (7 + k) := by
  simp only [fieldImmS, BitVec.getLsbD_append, BitVec.getLsbD_extractLsb']
  interval_cases k <;> simp

@[simp] theorem extractLsb'_fieldImmS_upper : (fieldImmS w).extractLsb' 5 7 = w.extractLsb' 25 7 := by
  ext j hj
  rw [BitVec.getElem_extractLsb', BitVec.getElem_extractLsb', fieldImmS_getLsbD w (by omega), if_pos (by omega),
    ← Nat.add_assoc]

@[simp] theorem extractLsb'_fieldImmS_lower : (fieldImmS w).extractLsb' 0 5 = w.extractLsb' 7 5 := by
  ext j hj
  rw [BitVec.getElem_extractLsb', BitVec.getElem_extractLsb', fieldImmS_getLsbD w (by omega), if_neg (by omega),
    Nat.zero_add]

/-- R56. -/
theorem fieldImmB_getLsbD {k : Nat} (hk : k < 13) :
    (fieldImmB w).getLsbD k =
      if 12 ≤ k then w.getLsbD 31 else if k = 11 then w.getLsbD 7 else if 5 ≤ k then w.getLsbD (20 + k)
      else if 1 ≤ k then w.getLsbD (7 + k) else false := by
  simp only [fieldImmB, BitVec.getLsbD_append, BitVec.getLsbD_extractLsb']
  interval_cases k <;> simp

/-- R56: where in the word the four parts of the immediate stand. -/
theorem fieldImmB_parts :
    (fieldImmB w).extractLsb' 12 1 = w.extractLsb' 31 1 ∧ (fieldImmB w).extractLsb' 5 6 = w.extractLsb' 25 6 ∧
    (fieldImmB w).extractLsb' 1 4 = w.extractLsb' 8 4 ∧ (fieldImmB w).extractLsb' 11 1 = w.extractLsb' 7 1 := by
  refine ⟨?_, ?_, ?_, ?_⟩ <;> ext j hj <;>
    rw [BitVec.getElem_extractLsb', BitVec.getElem_extractLsb', fieldImmB_getLsbD w (by omega)] <;>
    interval_cases j <;> rfl

@[simp] theorem branchHi_fieldImmB : branchHi (fieldImmB w) = w.extractLsb' 25 7 := by
  obtain ⟨h12, h5, -, -⟩ := fieldImmB_parts w
  rw [branchHi, h12, h5]
  exact BitVec.extractLsb'_append_extractLsb'_eq_extractLsb' rfl

@[simp] theorem branchLo_fieldImmB : branchLo (fieldImmB w) = w.extractLsb' 7 5 := by
  obtain ⟨-, -, h1, h11⟩ := fieldImmB_parts w
  rw [branchLo, h1, h11]
  exact BitVec.extractLsb'_append_extractLsb'_eq_extractLsb' rfl

end

/-! ### Encode after decode (R51 to R53, R57) -/

section
variable {w : Word} {imm : BitVec 12} {hi funct7 opcode : BitVec 7} {lo : BitVec 5} {funct3 : BitVec 3} {rd rs1 : Reg}

@[simp] theorem regBits_fieldRd : regBits (fieldRd w) = w.extractLsb' 7 5 := rfl
@[simp] theorem regBits_fieldRs1 : regBits (fieldRs1 w) = w.extractLsb' 15 5 := rfl
@[simp] theorem regBits_fieldRs2 : regBits (fieldRs2 w) = w.extractLsb' 20 5 := rfl

/-- The fields of the I-type, most significant first, make the word (R52). -/
theorem append_fields (w : Word) :
    w.extractLsb' 20 12 ++ w.extractLsb' 15 5 ++ w.extractLsb' 12 3 ++ w.extractLsb' 7 5 ++ w.extractLsb' 0 7 = w := by
  rw [BitVec.extractLsb'_append_extractLsb'_eq_extractLsb' (rfl : 20 = 15 + 5),
    BitVec.extractLsb'_append_extractLsb'_eq_extractLsb' (rfl : 15 = 12 + 3),
    BitVec.extractLsb'_append_extractLsb'_eq_extractLsb' (rfl : 12 = 7 + 5),
    BitVec.extractLsb'_append_extractLsb'_eq_extractLsb' (rfl : 7 = 0 + 7)]
  exact BitVec.extractLsb'_eq_self

/-- R52. -/
theorem encodeI_of_fields (himm : w.extractLsb' 20 12 = imm) (h1 : fieldRs1 w = rs1)
    (h3 : w.extractLsb' 12 3 = funct3) (hd : fieldRd w = rd) (ho : w.extractLsb' 0 7 = opcode) :
    encodeI imm rs1 funct3 rd opcode = w := by
  subst himm h1 h3 hd ho
  rw [encodeI, regBits_fieldRs1, regBits_fieldRd]
  exact append_fields w

/-- R51: bits 31 to 20 are `funct7` and `rs2`. -/
theorem encodeR_of_fields (h7 : w.extractLsb' 25 7 = funct7) (h3 : w.extractLsb' 12 3 = funct3)
    (ho : w.extractLsb' 0 7 = opcode) : encodeR funct7 (fieldRs2 w) (fieldRs1 w) funct3 (fieldRd w) opcode = w := by
  subst h7 h3 ho
  rw [encodeR, regBits_fieldRs2, regBits_fieldRs1, regBits_fieldRd,
    BitVec.extractLsb'_append_extractLsb'_eq_extractLsb' (rfl : 25 = 20 + 5)]
  exact append_fields w

/-- R53: bits 31 to 20 are the upper `imm` field and `rs2`. -/
theorem encodeS_of_fields (hhi : hi = w.extractLsb' 25 7) (h3 : w.extractLsb' 12 3 = funct3)
    (hlo : lo = w.extractLsb' 7 5) (ho : w.extractLsb' 0 7 = opcode) :
    encodeS hi (fieldRs2 w) (fieldRs1 w) funct3 lo opcode = w := by
  subst hhi h3 hlo ho
  rw [encodeS, regBits_fieldRs2, regBits_fieldRs1,
    BitVec.extractLsb'_append_extractLsb'_eq_extractLsb' (rfl : 25 = 20 + 5)]
  exact append_fields w

/-- A field that lies in the mask of a row covering the word holds what the row's pattern has there. -/
theorem Row.extractLsb'_of_covers {r : Row} (h : r.covers w = true) (start len : Nat)
    (hm : r.mask.extractLsb' start len = BitVec.allOnes len) :
    w.extractLsb' start len = r.pattern.extractLsb' start len := by
  rw [← beq_iff_eq.1 h, BitVec.extractLsb'_and, hm, BitVec.and_allOnes]

/-- R57: a row's mask is the bits that no operand holds, so the operands give the word back. -/
theorem encode_operandsOf {r : Row} (hr : r ∈ opcodeTable) (h : r.covers w = true) :
    encode (operandsOf w r.op) = w := by
  have fixed := Row.extractLsb'_of_covers h
  simp only [opcodeTable, List.mem_cons, List.not_mem_nil, or_false] at hr
  rcases hr with rfl | rfl | rfl | rfl | rfl | rfl | rfl | rfl | rfl | rfl
  -- CSRR and CSRW: the register field that no operand holds is fixed at x0 (D4).
  · exact encodeI_of_fields rfl (congrArg BitVec.toFin (fixed 15 5 rfl)) (fixed 12 3 rfl) rfl (fixed 0 7 rfl)
  · exact encodeI_of_fields rfl rfl (fixed 12 3 rfl) (congrArg BitVec.toFin (fixed 7 5 rfl)) (fixed 0 7 rfl)
  -- ADD, AND, SLL and SRL; then ADDI and LW.
  iterate 4 exact encodeR_of_fields (fixed 25 7 rfl) (fixed 12 3 rfl) (fixed 0 7 rfl)
  iterate 2 exact encodeI_of_fields rfl rfl (fixed 12 3 rfl) rfl (fixed 0 7 rfl)
  -- SW and BNE: the immediate is split over the two `imm` fields.
  · exact encodeS_of_fields (extractLsb'_fieldImmS_upper w) (fixed 12 3 rfl) (extractLsb'_fieldImmS_lower w)
      (fixed 0 7 rfl)
  · exact encodeS_of_fields (branchHi_fieldImmB w) (fixed 12 3 rfl) (branchLo_fieldImmB w) (fixed 0 7 rfl)

end

/-- R56: the B-immediate of any word has its bit 0 clear. -/
theorem wellFormed_operandsOf (w : Word) (op : Op) : (operandsOf w op).wellFormed = true := by
  cases op with
  | bne => exact beq_iff_eq.2 (fieldImmB_getLsbD w (by omega))
  | csrr | csrw | add | and | sll | srl | addi | lw | sw => rfl

/-- The word of a decoded instruction is the instruction's encoding. -/
theorem encode_of_decodeWord {w : Word} {i : Instr} (h : decodeWord w = .ok i) : encode i = w := by
  obtain ⟨r, hr, hcovers, rfl⟩ := decodeWord_ok h
  exact encode_operandsOf hr hcovers

theorem wellFormed_of_decodeWord {w : Word} {i : Instr} (h : decodeWord w = .ok i) : i.wellFormed = true := by
  obtain ⟨r, -, -, rfl⟩ := decodeWord_ok h
  exact wellFormed_operandsOf w r.op

/-! ### The fields as arithmetic on the word (R54 to R56, R60, R61) -/

/-- The value of two fields joined. -/
theorem toNat_append_eq_add {m n : Nat} (x : BitVec m) (y : BitVec n) : (x ++ y).toNat = x.toNat * 2 ^ n + y.toNat := by
  rw [BitVec.toNat_append, ← Nat.shiftLeft_add_eq_or_of_lt y.isLt, Nat.shiftLeft_eq]

section
variable (w : Word)

/-- The register specifier whose five bits begin at bit `start` (R60). -/
theorem toFin_extractLsb'_eq_iff (start : Nat) (r : Reg) :
    (w.extractLsb' start 5).toFin = r ↔ r.val = w.toNat / 2 ^ start % 32 := by
  have hval : (w.extractLsb' start 5).toFin.val = w.toNat / 2 ^ start % 32 := by
    rw [BitVec.val_toFin, BitVec.extractLsb'_toNat, Nat.shiftRight_eq_div_pow]
  rw [← hval]
  exact eq_comm.trans Fin.ext_iff

theorem fieldRd_eq_iff (r : Reg) : fieldRd w = r ↔ r.val = w.toNat / 2 ^ 7 % 32 := toFin_extractLsb'_eq_iff w 7 r

theorem fieldRs1_eq_iff (r : Reg) : fieldRs1 w = r ↔ r.val = w.toNat / 2 ^ 15 % 32 := toFin_extractLsb'_eq_iff w 15 r

theorem fieldRs2_eq_iff (r : Reg) : fieldRs2 w = r ↔ r.val = w.toNat / 2 ^ 20 % 32 := toFin_extractLsb'_eq_iff w 20 r

theorem fieldCsr_eq_iff (csr : CsrNumber) : fieldCsr w = csr ↔ csr.toNat = w.toNat / 2 ^ 20 := by
  rw [eq_comm, ← BitVec.toNat_inj, fieldCsr, BitVec.extractLsb'_toNat, Nat.shiftRight_eq_div_pow,
    Nat.mod_eq_of_lt (by omega)]

theorem fieldImmI_eq_iff (imm : BitVec 12) : fieldImmI w = imm ↔ imm.toNat = w.toNat / 2 ^ 20 :=
  fieldCsr_eq_iff w imm

theorem fieldImmS_eq_iff (imm : BitVec 12) :
    fieldImmS w = imm ↔ imm.toNat = w.toNat / 2 ^ 25 * 32 + w.toNat / 2 ^ 7 % 32 := by
  have hval : (fieldImmS w).toNat = w.toNat / 2 ^ 25 * 32 + w.toNat / 2 ^ 7 % 32 := by
    simp only [fieldImmS, toNat_append_eq_add, BitVec.extractLsb'_toNat, Nat.shiftRight_eq_div_pow]
    omega
  rw [eq_comm, ← BitVec.toNat_inj, hval]

theorem fieldImmB_eq_iff (imm : BitVec 13) :
    fieldImmB w = imm ↔ imm.toNat = w.toNat / 2 ^ 31 * 2 ^ 12 + w.toNat / 2 ^ 7 % 2 * 2 ^ 11 +
      w.toNat / 2 ^ 25 % 64 * 2 ^ 5 + w.toNat / 2 ^ 8 % 16 * 2 := by
  have hval : (fieldImmB w).toNat = w.toNat / 2 ^ 31 * 2 ^ 12 + w.toNat / 2 ^ 7 % 2 * 2 ^ 11 +
      w.toNat / 2 ^ 25 % 64 * 2 ^ 5 + w.toNat / 2 ^ 8 % 16 * 2 := by
    simp only [fieldImmB, toNat_append_eq_add, BitVec.extractLsb'_toNat, Nat.shiftRight_eq_div_pow,
      BitVec.toNat_ofNat]
    omega
  rw [eq_comm, ← BitVec.toNat_inj, hval]

end

/-! ### Sign-extended immediates (R54 to R56) -/

section
variable {n : Nat} (imm : BitVec n)

/-- A bit beyond the immediate's own is its topmost bit. -/
theorem getLsbD_signExtend_word {k : Nat} (hk : k < 32) :
    (imm.signExtend 32).getLsbD k = imm.getLsbD (min k (n - 1)) := by
  rw [BitVec.getLsbD_signExtend, decide_eq_true hk, Bool.true_and]
  split
  next h => rw [Nat.min_eq_left (by omega)]
  next h => rw [Nat.min_eq_right (by omega), BitVec.msb_eq_getLsbD_last]

/-- An immediate has the range of its width. -/
theorem toInt_signExtend_word_range (hn : n ≤ 32) :
    -2 ^ (n - 1) ≤ (imm.signExtend 32).toInt ∧ (imm.signExtend 32).toInt < 2 ^ (n - 1) := by
  rw [BitVec.toInt_signExtend_of_le hn]
  exact ⟨imm.le_toInt, BitVec.toInt_lt⟩

end

/-- An offset is even when its bit 0 is clear. -/
theorem getLsbD_zero_eq_false_iff (imm : BitVec 13) : imm.getLsbD 0 = false ↔ imm.toInt % 2 = 0 := by
  have h0 : imm.getLsbD 0 = false ↔ imm.toNat % 2 = 0 := by
    rw [BitVec.getLsbD, Nat.testBit_zero, decide_eq_false_iff_not]
    omega
  rw [h0, BitVec.toInt_eq_toNat_cond]
  split <;> omega

/-! ### Bytes (R32, R50) -/

/-- Four bytes decode as their word, whatever follows them. -/
theorem decodeBytes_bytesOfWord_append (w : Word) (rest : List Byte) :
    decodeBytes (bytesOfWord w ++ rest) = (decodeWord w).map (·, rest) := by
  simp only [bytesOfWord, List.cons_append, List.nil_append, decodeBytes, Machine.wordOfBytes_byteOf]
  cases decodeWord w <;> rfl

/-- R50. -/
theorem decodeBytes_of_length_lt {bytes : List Byte} (h : bytes.length < 4) :
    decodeBytes bytes = .error .truncated := by
  match bytes, h with
  | [], _ | [_], _ | [_, _], _ | [_, _, _], _ => rfl

theorem bytesOfWord_wordOfBytes (b0 b1 b2 b3 : Byte) : bytesOfWord (wordOfBytes b0 b1 b2 b3) = [b0, b1, b2, b3] := by
  simp [bytesOfWord]

theorem wordOfBytes_toNat (b0 b1 b2 b3 : Byte) :
    (wordOfBytes b0 b1 b2 b3).toNat = b0.toNat + b1.toNat * 2 ^ 8 + b2.toNat * 2 ^ 16 + b3.toNat * 2 ^ 24 := by
  rw [toNat_eq_sum_bytes]
  simp

end Sys2Proof
end

section
/-! The statements on instruction words: decoding, encoding, immediates, bytes, operands (spec/30_encoding.md). -/

namespace Sys2Proof.Machine

/-- Settles O1: the word is covered by the instruction's own row, and its fields are the operands. -/
theorem decodeOfEncode : Obligations.DecodeOfEncode :=
  fun _ => decodeWord_encode

/-- Settles O2: the operands are well-formed fields, and with the bits that the row fixes they make the word. -/
theorem encodeOfDecode : Obligations.EncodeOfDecode :=
  fun _ _ h => ⟨wellFormed_of_decodeWord h, encode_of_decodeWord h⟩

/-- Settles O3: the row's mask and match, and each operand by the value of its field. -/
theorem operandFieldsOfWords : Obligations.OperandFieldsOfWords := by
  refine ⟨fun w rd csr => ?_, fun w csr rs1 => ?_, fun w rd rs1 imm => ?_, fun w rs2 rs1 imm => ?_,
    fun w rs1 rs2 imm => ?_⟩
  · rw [decodeWord_eq_ok_iff (r := ⟨.csrr, 0x00002073#32, 0x000FF07F#32⟩) (by decide) rfl, operandsOf,
      Instr.csrr.injEq, fieldRd_eq_iff, fieldCsr_eq_iff]
  · rw [decodeWord_eq_ok_iff (r := ⟨.csrw, 0x00001073#32, 0x00007FFF#32⟩) (by decide) rfl, operandsOf,
      Instr.csrw.injEq, fieldCsr_eq_iff, fieldRs1_eq_iff]
  · rw [decodeWord_eq_ok_iff (r := ⟨.lw, 0x00002003#32, 0x0000707F#32⟩) (by decide) rfl, operandsOf,
      Instr.lw.injEq, fieldRd_eq_iff, fieldRs1_eq_iff, fieldImmI_eq_iff]
  · rw [decodeWord_eq_ok_iff (r := ⟨.sw, 0x00002023#32, 0x0000707F#32⟩) (by decide) rfl, operandsOf,
      Instr.sw.injEq, fieldRs2_eq_iff, fieldRs1_eq_iff, fieldImmS_eq_iff]
  · rw [decodeWord_eq_ok_iff (r := ⟨.bne, 0x00001063#32, 0x0000707F#32⟩) (by decide) rfl, operandsOf,
      Instr.bne.injEq, fieldRs1_eq_iff, fieldRs2_eq_iff, fieldImmB_eq_iff]

/-- Settles O4, from the bits of the field and of a sign extension. -/
theorem immediateOfIType : Obligations.ImmediateOfIType := by
  intro w rd rs1 imm h
  obtain rfl : fieldImmI w = imm := by
    rcases h with h | h
    · obtain ⟨-, -, himm⟩ := Instr.addi.inj (operandsOf_of_decodeWord h)
      exact himm
    · obtain ⟨-, -, himm⟩ := Instr.lw.inj (operandsOf_of_decodeWord h)
      exact himm
  obtain ⟨hlow, hhigh⟩ := toInt_signExtend_word_range (fieldImmI w) (by decide)
  refine ⟨fun k hk => ?_, rfl, hlow, Int.le_of_lt_add_one hhigh⟩
  rw [getLsbD_signExtend_word _ hk, fieldImmI_getLsbD w (by omega)]
  rcases Nat.lt_or_ge k 11 with h | h
  · rw [Nat.min_eq_left (by omega), if_neg (by omega)]
  · rw [Nat.min_eq_right h, if_pos h]

/-- Settles O5, from the bits of the field and of a sign extension. -/
theorem immediateOfSType : Obligations.ImmediateOfSType := by
  intro w rs2 rs1 imm h
  obtain ⟨-, -, rfl⟩ := Instr.sw.inj (operandsOf_of_decodeWord h)
  obtain ⟨hlow, hhigh⟩ := toInt_signExtend_word_range (fieldImmS w) (by decide)
  refine ⟨fun k hk => ?_, rfl, hlow, Int.le_of_lt_add_one hhigh⟩
  rw [getLsbD_signExtend_word _ hk, fieldImmS_getLsbD w (by omega)]
  rcases Nat.lt_or_ge k 11 with h | h
  · rw [Nat.min_eq_left (by omega), if_neg (by omega : ¬11 ≤ k)]
  · rw [Nat.min_eq_right h, if_pos h, if_pos (by decide)]

/-- Settles O6: the bits as for O5, evenness from bit 0, and the encode direction by reading the immediate back from
its word. -/
theorem immediateOfBType : Obligations.ImmediateOfBType := by
  refine ⟨fun w rs1 rs2 imm h => ?_, fun rs1 rs2 imm h => ?_⟩
  · obtain ⟨-, -, rfl⟩ := Instr.bne.inj (operandsOf_of_decodeWord h)
    obtain ⟨hlow, hhigh⟩ := toInt_signExtend_word_range (fieldImmB w) (by decide)
    have heven : ((fieldImmB w).signExtend 32).toInt % 2 = 0 := by
      rw [BitVec.toInt_signExtend_of_le (by decide), ← getLsbD_zero_eq_false_iff]
      exact fieldImmB_getLsbD w (by decide)
    refine ⟨fun k hk => ?_, hlow, by omega, heven⟩
    rw [getLsbD_signExtend_word _ hk, fieldImmB_getLsbD w (by omega)]
    rcases Nat.lt_or_ge k 12 with h | h
    · rw [Nat.min_eq_left (by omega)]
    · rw [Nat.min_eq_right h, if_pos h, if_pos (by decide)]
  · generalize hw : encode (.bne rs1 rs2 imm) = w
    obtain rfl : fieldImmB w = imm := by rw [← hw, fieldImmB_encode_bne rs1 rs2 h]
    obtain ⟨-, h5, h1, -⟩ := fieldImmB_parts w
    exact ⟨(fieldImmB_getLsbD w (k := 12) (by decide)).symm, h5.symm, h1.symm,
      (fieldImmB_getLsbD w (k := 11) (by decide)).symm⟩

/-- Settles O8: the four bytes of a word make it again, and any four bytes are those of the word they make. -/
theorem bytesDecodeAsWords : Obligations.BytesDecodeAsWords := by
  refine ⟨fun w rest => ?_, fun _ => decodeBytes_of_length_lt,
    fun b0 b1 b2 b3 => ⟨_, bytesOfWord_wordOfBytes b0 b1 b2 b3, wordOfBytes_toNat b0 b1 b2 b3⟩⟩
  rw [decodeBytes_bytesOfWord_append]
  cases decodeWord w <;> rfl

/-- Settles O10: an operand in range is a number its width can hold, which sign extension keeps. -/
theorem assembledOperandsKeepTheirValue : Obligations.AssembledOperandsKeepTheirValue := by
  refine ⟨fun n h => ?_, fun n h => if_neg (by omega), fun n h => ?_, fun n h => if_neg (by omega),
    fun n h => ⟨_, if_pos h, Nat.mod_eq_of_lt (by omega)⟩, fun n h => if_neg (by omega)⟩
  · have hn : (BitVec.ofInt 12 n).toInt = n := BitVec.toInt_ofInt_eq_self (by decide) (by omega) (by omega)
    exact ⟨_, if_pos h, hn, congrArg (BitVec.ofInt 32) hn, congrArg (BitVec.ofInt 32) hn⟩
  · have hn : (BitVec.ofInt 13 n).toInt = n := BitVec.toInt_ofInt_eq_self (by decide) (by omega) (by omega)
    refine ⟨_, if_pos h, hn, congrArg (BitVec.ofInt 32) hn, fun _ _ => ?_⟩
    exact beq_iff_eq.2 ((getLsbD_zero_eq_false_iff _).2 (by omega))

/-- Settles O40: the word is covered by no row, so the decoder rejects it and the fetch faults. -/
theorem illegalWordsFault : Obligations.IllegalWordsFault := by
  intro s w hs hw hcsrr hcsrw hadd hand hsll hsrl haddi hlw hsw hbne
  have hd : decodeWord w = .error (.illegalWord w) := by
    apply decodeWord_of_not_covered
    simp only [opcodeTable, List.forall_mem_cons]
    exact ⟨hcsrr, hcsrw, hadd, hand, hsll, hsrl, haddi, hlw, hsw, hbne, List.forall_mem_nil _⟩
  have hf : fetch s = .error (.illegalInstruction s.pc w) := by rw [fetch_of_canFetch hs, hw, hd]
  exact step_of_fetch_error hs.1 hf

/-- Settles O7: each word is the encoding of its instruction, and decodes to it by the round trip. -/
theorem knownWordsDecode : Obligations.KnownWordsDecode :=
  ⟨decodeWord_encode (i := .add 3 1 2) rfl, decodeWord_encode (i := .and 5 6 7) rfl,
    decodeWord_encode (i := .sll 10 11 12) rfl, decodeWord_encode (i := .srl 31 30 29) rfl,
    decodeWord_encode (i := .addi 2 2 0xFFF#12) rfl, decodeWord_encode (i := .lw 5 6 8#12) rfl,
    decodeWord_encode (i := .sw 7 8 0xFF8#12) rfl, decodeWord_encode (i := .bne 1 0 0x1FF8#13) rfl,
    decodeWord_encode (i := .csrr 1 0xFC0#12) rfl, decodeWord_encode (i := .csrw 0x7C0#12 3) rfl⟩

end Sys2Proof.Machine
end

section
/-! What the CSR instructions do, by number and readiness: when a read and a write complete, stall and fault
(spec/40_csr.md R70 to R74), and that the environment's turn leaves the fetch as it was. -/

namespace Sys2Proof.Machine

variable {s u : State} {csr : CsrNumber} {v : Word}

/-! ### The numbers of the manager's two CSRs (R15, R16) -/

@[simp] theorem csrOfNumber_proc2mngr : csrOfNumber 0x7C0#12 = some .proc2mngr := csrOfNumber_csrNumber .proc2mngr

@[simp] theorem csrOfNumber_mngr2proc : csrOfNumber 0xFC0#12 = some .mngr2proc := csrOfNumber_csrNumber .mngr2proc

/-! ### CSR accesses that are done, fault or stall (R72, R73) -/

/-- The enqueue of R73. -/
theorem csrWrite_proc2mngr_of_ready (h : s.p2mReady = true) (v : Word) :
    csrWrite 0x7C0#12 v s = .done (s.pushP2m v) := by
  simp [csrWrite, enqueueP2m, h]

theorem csrRead_proc2mngr (s : State) : csrRead 0x7C0#12 s = .faulted (.undefinedCSRAccess 0x7C0#12 .read) := by
  simp [csrRead]

theorem csrWrite_mngr2proc (v : Word) (s : State) :
    csrWrite 0xFC0#12 v s = .faulted (.undefinedCSRAccess 0xFC0#12 .write) := by
  simp [csrWrite]

theorem csrRead_of_not_isCsrNumber (h : ¬ isCsrNumber csr) (s : State) :
    csrRead csr s = .faulted (.unsupportedCSR csr) := by
  simp [csrRead, (csrOfNumber_eq_none_iff csr).2 h]

theorem csrWrite_of_not_isCsrNumber (h : ¬ isCsrNumber csr) (v : Word) (s : State) :
    csrWrite csr v s = .faulted (.unsupportedCSR csr) := by
  simp [csrWrite, (csrOfNumber_eq_none_iff csr).2 h]

theorem csrRead_of_stalls {rd : Reg} (h : Stalls (.csrr rd csr) s) : csrRead csr s = .stalled := by
  rcases h with ⟨rfl, hempty⟩ | ⟨k, hk, hcsr⟩
  · simp [csrRead, dequeueM2p, hempty]
  · simp [csrRead, csrOfNumber_of_toNat_eq hcsr, xcelReadReg, hk]

theorem csrWrite_of_stalls {rs1 : Reg} (h : Stalls (.csrw csr rs1) s) (v : Word) : csrWrite csr v s = .stalled := by
  rcases h with ⟨rfl, hbusy⟩ | ⟨k, hk, hcsr⟩
  · simp [csrWrite, enqueueP2m, hbusy]
  · simp [csrWrite, csrOfNumber_of_toNat_eq hcsr, xcelWriteReg, hk]

/-! ### The instructions (R70, R71, R74) -/

/-- Beyond what its access has done, a CSRR that completes writes `rd` and advances the `pc` (R70). -/
theorem exec_csrr_completes (h : csrRead csr s = .done (v, u)) (rd : Reg) :
    ∃ t, exec (.csrr rd csr) s = .next t ∧ OnlyRegister rd v u t ∧ t.pc = u.pc + 4#32 ∧ SameMemory u t ∧
      SameOutside u t :=
  ⟨_, exec_csrr_of_done h rd, fun r => u.reg_setReg rd r v, rfl, fun _ => rfl, by simp [SameOutside]⟩

/-- Beyond what its access has done, a CSRW that completes advances the `pc` (R71). -/
theorem exec_csrw_completes {rs1 : Reg} (h : csrWrite csr (s.reg rs1) s = .done u) :
    ∃ t, exec (.csrw csr rs1) s = .next t ∧ SameRegisters u t ∧ t.pc = u.pc + 4#32 ∧ SameMemory u t ∧
      SameOutside u t :=
  ⟨_, exec_csrw_of_done h, fun _ => rfl, rfl, fun _ => rfl, by simp [SameOutside]⟩

/-- Only CSRR and CSRW stall, and a stall is the same state (R74). -/
theorem exec_of_stalls {i : Instr} (h : Stalls i s) : exec i s = .next s := by
  cases i with
  | csrr rd csr => exact exec_csrr_of_stalled (csrRead_of_stalls h) rd
  | csrw csr rs1 => exact exec_csrw_of_stalled (csrWrite_of_stalls h _)
  | add | and | sll | srl | addi | lw | sw | bne => exact h.elim

/-! ### Fetching after the environment's turn (R40) -/

@[simp] theorem fetch_environmentTurn (s : State) : fetch s.environmentTurn = fetch s := by
  simp [fetch]

theorem State.environmentTurn_canFetch (h : s.canFetch) : s.environmentTurn.canFetch := by
  simpa [State.canFetch] using h

end Sys2Proof.Machine
end

section
/-! The statements on the CSR instructions: the manager's FIFOs, the faults, and stalls (spec/40_csr.md). -/

namespace Sys2Proof.Machine

/-- Settles O30: the access leaves the state with the rest of `m2p`, and the instruction adds `rd` and the `pc`. -/
theorem readFromManagerDequeues : Obligations.ReadFromManagerDequeues := by
  intro s rd v rest h
  obtain ⟨t, hexec, hreg, hpc, hmem, hout⟩ := exec_csrr_completes (csrRead_mngr2proc_of_cons h) rd
  have ⟨hm2p, _⟩ := hout
  exact ⟨t, hexec, hreg, hpc, hm2p, hmem, hout⟩

/-- Settles O31: the access leaves the state with the word at the tail of `p2m`, and the instruction adds the `pc`. -/
theorem writeToManagerEnqueues : Obligations.WriteToManagerEnqueues := by
  intro s rs1 h
  obtain ⟨t, hexec, hregs, hpc, hmem, hout⟩ := exec_csrw_completes (csrWrite_proc2mngr_of_ready h (s.reg rs1))
  have ⟨_, hp2m, _⟩ := hout
  exact ⟨t, hexec, hp2m, hpc, hregs, hmem, hout⟩

/-- Settles O33: the number and the direction alone make the access fault. -/
theorem csrNumberFaults : Obligations.CsrNumberFaults := fun s r =>
  ⟨exec_csrr_of_faulted (csrRead_proc2mngr s) r, exec_csrw_of_faulted (csrWrite_mngr2proc (s.reg r) s), fun _ hn =>
    ⟨exec_csrr_of_faulted (csrRead_of_not_isCsrNumber hn s) r,
      exec_csrw_of_faulted (csrWrite_of_not_isCsrNumber hn (s.reg r) s)⟩⟩

/-- Settles O34: a stall is the same state, and the environment's turn reaches nothing that a fetch looks at. -/
theorem stallChangesNothingAndRetries : Obligations.StallChangesNothingAndRetries := by
  intro i s hstall
  have hexec := exec_of_stalls hstall
  refine ⟨hexec, fun hs hfetch => ?_⟩
  have ⟨hrun, _⟩ := hs
  exact ⟨step_of_exec_next hrun hfetch hexec, State.environmentTurn_canFetch hs,
    (fetch_environmentTurn s).trans hfetch⟩

end Sys2Proof.Machine
end

section
/-! What the five arithmetic instructions do: the word each one writes, in the two spellings of spec/41_arith.md
(an operation on words, and arithmetic on their values), and that nothing but `rd` and the `pc` changes. -/

namespace Sys2Proof.Machine

variable {s : State}

/-! ### Word operations as arithmetic on values (R54, R80 to R85) -/

/-- R85: the low five bits of a register are its value modulo 32. -/
theorem shiftAmount_eq_mod (r : Reg) (s : State) : shiftAmount r s = (s.reg r).toNat % 32 := by
  rw [shiftAmount, BitVec.extractLsb'_toNat, Nat.shiftRight_zero]

theorem add_eq_ofNat (a b : Word) : a + b = BitVec.ofNat 32 ((a.toNat + b.toNat) % 2 ^ 32) :=
  BitVec.eq_of_toNat_eq (by simp)

/-- R82: a shift to the left keeps the low 32 bits of the product. -/
theorem shiftLeft_eq_ofNat (a : Word) (k : Nat) : a <<< k = BitVec.ofNat 32 (a.toNat * 2 ^ k % 2 ^ 32) :=
  BitVec.eq_of_toNat_eq (by simp [Nat.shiftLeft_eq])

/-- R83: zeros enter at bit 31, so a shift to the right is the quotient of the unsigned value. -/
theorem ushiftRight_eq_ofNat (a : Word) (k : Nat) : a >>> k = BitVec.ofNat 32 (a.toNat / 2 ^ k) := by
  rw [← Nat.shiftRight_eq_div_pow, ← BitVec.toNat_ushiftRight, BitVec.ofNat_toNat, BitVec.setWidth_eq]

/-- R84: adding a sign-extended immediate adds its signed value. -/
theorem add_signExtend_eq_ofInt (a : Word) (imm : BitVec 12) :
    a + imm.signExtend 32 = BitVec.ofInt 32 (a.toNat + imm.toInt) := by
  rw [BitVec.ofInt_add, BitVec.ofInt_natCast, BitVec.ofNat_toNat, BitVec.setWidth_eq, BitVec.signExtend]

/-! ### The instructions (R80 to R84): each writes `rd` from the state before it, and advances the `pc` -/

theorem exec_add (s : State) (rd rs1 rs2 : Reg) :
    exec (.add rd rs1 rs2) s = .next ((s.setReg rd (s.reg rs1 + s.reg rs2)).setPc (s.pc + 4#32)) := rfl

theorem exec_and (s : State) (rd rs1 rs2 : Reg) :
    exec (.and rd rs1 rs2) s = .next ((s.setReg rd (s.reg rs1 &&& s.reg rs2)).setPc (s.pc + 4#32)) := rfl

theorem exec_sll (s : State) (rd rs1 rs2 : Reg) :
    exec (.sll rd rs1 rs2) s =
      .next ((s.setReg rd (s.reg rs1 <<< ((s.reg rs2).toNat % 32))).setPc (s.pc + 4#32)) := by
  rw [← shiftAmount_eq_mod]
  rfl

theorem exec_srl (s : State) (rd rs1 rs2 : Reg) :
    exec (.srl rd rs1 rs2) s =
      .next ((s.setReg rd (s.reg rs1 >>> ((s.reg rs2).toNat % 32))).setPc (s.pc + 4#32)) := by
  rw [← shiftAmount_eq_mod]
  rfl

theorem exec_addi (s : State) (rd rs1 : Reg) (imm : BitVec 12) :
    exec (.addi rd rs1 imm) s =
      .next ((s.setReg rd (s.reg rs1 + imm.signExtend 32)).setPc (s.pc + 4#32)) := rfl

/-! ### What an instruction that writes `rd` and advances the `pc` leaves -/

section
variable {i : Instr} {rd : Reg} {v : Word} (h : exec i s = .next ((s.setReg rd v).setPc (s.pc + 4#32)))
include h

/-- The frame of such an instruction: no other register, no memory and nothing outside them (R10, R96). -/
theorem exec_writes_only : ∃ t, exec i s = .next t ∧ OnlyRegister rd v s t ∧ t.pc = s.pc + 4#32 ∧ SameMemory s t ∧
    SameOutside s t :=
  ⟨_, h, fun r => s.reg_setReg rd r v, rfl, fun _ => rfl, by simp [SameOutside]⟩

/-- The value such an instruction leaves in its destination. -/
theorem exec_reads_back (hrd : rd ≠ 0) : ∃ t, exec i s = .next t ∧ t.reg rd = v := by
  obtain ⟨t, hexec, hreg, -⟩ := exec_writes_only h
  exact ⟨t, hexec, (hreg rd).trans (if_pos ⟨rfl, hrd⟩)⟩

end

end Sys2Proof.Machine
end

section
/-! The statements on arithmetic: encoding, result and frame of each instruction, and the order of its reads and
its write (spec/41_arith.md). -/

namespace Sys2Proof.Machine

/-- Settles O13: the word written is a function of the state before, whichever of the registers are the same. -/
theorem sourcesReadBeforeDestination : Obligations.SourcesReadBeforeDestination := by
  refine ⟨fun s v => ⟨s.reg_zero, s.setReg_zero v⟩, fun s r hr => ?_⟩
  have hadd (a b : Reg) := exec_reads_back (exec_add s r a b) hr
  have hand (a b : Reg) := exec_reads_back (exec_and s r a b) hr
  have hsll (a b : Reg) := exec_reads_back (exec_sll s r a b) hr
  have hsrl (a b : Reg) := exec_reads_back (exec_srl s r a b) hr
  have hand_self : ∃ t, exec (.and r r r) s = .next t ∧ t.reg r = s.reg r := by
    simpa only [BitVec.and_self] using hand r r
  exact ⟨hadd r r, hand_self, hsll r r, hsrl r r, fun imm => exec_reads_back (exec_addi s r r imm) hr,
    fun imm h => exec_lw_loaded hr h,
    fun q => ⟨hadd r q, hadd q r, hand r q, hand q r, hsll r q, hsll q r, hsrl r q, hsrl q r⟩⟩

/-- Settles O14, from the row of ADD and the sum as a number. -/
theorem addRule : Obligations.AddRule := by
  refine ⟨fun w rd rs1 rs2 => ?_, fun s rd rs1 rs2 => ?_⟩
  · rw [decodeWord_eq_ok_iff (r := ⟨.add, 0x00000033#32, 0xFE00707F#32⟩) (by decide) rfl, operandsOf,
      Instr.add.injEq, fieldRd_eq_iff, fieldRs1_eq_iff, fieldRs2_eq_iff]
  · rw [← add_eq_ofNat]
    exact exec_writes_only (exec_add s rd rs1 rs2)

/-- Settles O15, from the row of AND. -/
theorem andRule : Obligations.AndRule := by
  refine ⟨fun w rd rs1 rs2 => ?_, fun s rd rs1 rs2 => exec_writes_only (exec_and s rd rs1 rs2)⟩
  rw [decodeWord_eq_ok_iff (r := ⟨.and, 0x00007033#32, 0xFE00707F#32⟩) (by decide) rfl, operandsOf,
    Instr.and.injEq, fieldRd_eq_iff, fieldRs1_eq_iff, fieldRs2_eq_iff]

/-- Settles O16, from the row of SLL and the shift as a product. -/
theorem shiftLeftRule : Obligations.ShiftLeftRule := by
  refine ⟨fun w rd rs1 rs2 => ?_, fun s rd rs1 rs2 => ?_⟩
  · rw [decodeWord_eq_ok_iff (r := ⟨.sll, 0x00001033#32, 0xFE00707F#32⟩) (by decide) rfl, operandsOf,
      Instr.sll.injEq, fieldRd_eq_iff, fieldRs1_eq_iff, fieldRs2_eq_iff]
  · rw [← shiftLeft_eq_ofNat]
    exact exec_writes_only (exec_sll s rd rs1 rs2)

/-- Settles O17, from the row of SRL and the shift as a quotient. -/
theorem shiftRightRule : Obligations.ShiftRightRule := by
  refine ⟨fun w rd rs1 rs2 => ?_, fun s rd rs1 rs2 => ?_⟩
  · rw [decodeWord_eq_ok_iff (r := ⟨.srl, 0x00005033#32, 0xFE00707F#32⟩) (by decide) rfl, operandsOf,
      Instr.srl.injEq, fieldRd_eq_iff, fieldRs1_eq_iff, fieldRs2_eq_iff]
  · rw [← ushiftRight_eq_ofNat]
    exact exec_writes_only (exec_srl s rd rs1 rs2)

/-- Settles O18, from the row of ADDI and the sum with the signed immediate. -/
theorem addImmediateRule : Obligations.AddImmediateRule := by
  refine ⟨fun w rd rs1 imm => ?_, fun s rd rs1 imm => ?_⟩
  · rw [decodeWord_eq_ok_iff (r := ⟨.addi, 0x00000013#32, 0x0000707F#32⟩) (by decide) rfl, operandsOf,
      Instr.addi.injEq, fieldRd_eq_iff, fieldRs1_eq_iff, fieldImmI_eq_iff]
  · rw [← add_signExtend_eq_ofInt]
    exact exec_writes_only (exec_addi s rd rs1 imm)

end Sys2Proof.Machine
end

section
/-! What the checks of R92 answer for an address, and what LW and SW do when they admit it. -/

namespace Sys2Proof.Machine

variable {s : State} {a : Word}

/-! ### The checks of R92, misalignment first (D5, D6, D25) -/

theorem accessFault_of_misaligned (h : a.toNat % 4 ≠ 0) : accessFault a = some (.misalignedAccess a) := by
  obtain ⟨-, e⟩ | ⟨h4, -, -⟩ | ⟨h4, -, -⟩ := accessFault_cases a
  · exact e
  · exact absurd h4 h
  · exact absurd h4 h

theorem accessFault_of_outOfRange (h4 : a.toNat % 4 = 0) (hr : 0xFFFFF < a.toNat) :
    accessFault a = some (.addressOutOfRange a) := by
  obtain ⟨h, -⟩ | ⟨-, -, e⟩ | ⟨-, h, -⟩ := accessFault_cases a
  · exact absurd h4 h
  · exact e
  · exact absurd hr h.not_gt

theorem accessFault_of_admitted (h4 : a.toNat % 4 = 0) (hr : a.toNat ≤ 0xFFFFF) : accessFault a = none := by
  obtain ⟨h, -⟩ | ⟨-, h, -⟩ | ⟨-, -, e⟩ := accessFault_cases a
  · exact absurd h4 h
  · exact absurd hr h.not_ge
  · exact e

/-! ### Bytes of memory and words (R32, R34, R90) -/

theorem Memory.readWord_eq_append (m : Memory) (n : Nat) :
    Memory.readWord m n = Memory.readByte m (n + 3) ++ Memory.readByte m (n + 2) ++ Memory.readByte m (n + 1) ++
      Memory.readByte m n := rfl

/-! ### A store that the checks admit (R91) -/

/-- The frame of an admitted SW: memory is one word write, no register changes and nothing outside. -/
theorem exec_sw_writes_only {rs1 : Reg} {imm : BitVec 12} (h : accessFault (s.reg rs1 + imm.signExtend 32) = none)
    (rs2 : Reg) :
    ∃ t, exec (.sw rs2 rs1 imm) s = .next t ∧
      t.mem = Memory.writeWord s.mem (s.reg rs1 + imm.signExtend 32).toNat (s.reg rs2) ∧
      SameRegisters s t ∧ t.pc = s.pc + 4#32 ∧ SameOutside s t :=
  have hexec := exec_sw_of_ok h rs2
  ⟨_, hexec, rfl, fun _ => rfl, rfl, exec_sameOutside rfl hexec⟩

end Sys2Proof.Machine
end

section
/-! The statements on LW and SW: result, stored bytes, frame and faults (spec/42_mem.md). -/

namespace Sys2Proof.Machine

/-- Settles O22: an admitted LW writes `rd` only, with the word read, which is its four bytes. -/
theorem loadWordCompletes : Obligations.LoadWordCompletes := by
  rintro s rd rs1 imm _ rfl h4 hr
  rw [← Memory.readWord_eq_append]
  exact exec_writes_only (exec_lw_of_ok (accessFault_of_admitted h4 hr) rd)

/-- Settles O23, from the bytes inside and outside the one word write of an admitted SW. -/
theorem storeWordCompletes : Obligations.StoreWordCompletes := by
  rintro s rs2 rs1 imm _ rfl h4 hr
  obtain ⟨t, hexec, hmem, hregs, hpc, hout⟩ := exec_sw_writes_only (accessFault_of_admitted h4 hr) rs2
  refine ⟨t, hexec, fun k hk => ?_, fun n hn => ?_, hregs, hpc, hout⟩
  · rw [hmem, Memory.readByte_writeWord_inside _ _ _ hk, byteOf]
  · rw [hmem, Memory.readByte_writeWord_outside _ _ _ _ hn]

/-- Settles O24: LW and SW raise what the checks of R92 answer. -/
theorem badAddressesFault : Obligations.BadAddressesFault := by
  rintro s r rs1 imm _ rfl
  refine ⟨fun h4 => ?_, fun h4 hr => ?_⟩
  · have hf := accessFault_of_misaligned h4
    exact ⟨exec_lw_of_fault hf r, exec_sw_of_fault hf r⟩
  · have hf := accessFault_of_outOfRange h4 hr
    exact ⟨exec_lw_of_fault hf r, exec_sw_of_fault hf r⟩

end Sys2Proof.Machine
end

section
/-! What an instruction that goes on does to the `pc` (R95, R96): a CSR access that stalls is one whose condition
does not hold, one that is done leaves the `pc`, and a branch leaves everything else. -/

namespace Sys2Proof.Machine

variable {s t u : State} {csr : CsrNumber} {v : Word}

/-! ### CSR accesses that stall or are done (R72 to R74) -/

/-- A CSR read stalls only where its FIFO or accelerator condition does not hold (R72). -/
theorem stalls_of_csrRead (h : csrRead csr s = .stalled) (rd : Reg) : Stalls (.csrr rd csr) s := by
  unfold csrRead at h
  split at h
  next hc =>
    refine .inl ⟨(csrNumber_of_csrOfNumber hc).symm, ?_⟩
    unfold dequeueM2p at h
    split at h
    · assumption
    · cases h
  · cases h
  next k hc =>
    obtain rfl := csrNumber_of_csrOfNumber hc
    refine .inr ⟨k, ?_, csrNumber_xcelreg_toNat k⟩
    unfold xcelReadReg at h
    split at h
    · assumption
    · cases h
  · cases h

/-- A CSR write stalls only where its FIFO or accelerator condition does not hold (R73). -/
theorem stalls_of_csrWrite (h : csrWrite csr v s = .stalled) (rs1 : Reg) : Stalls (.csrw csr rs1) s := by
  unfold csrWrite at h
  split at h
  next hc =>
    refine .inl ⟨(csrNumber_of_csrOfNumber hc).symm, ?_⟩
    unfold enqueueP2m at h
    split at h
    · cases h
    · exact Bool.eq_false_of_not_eq_true ‹_›
  · cases h
  next k hc =>
    obtain rfl := csrNumber_of_csrOfNumber hc
    refine .inr ⟨k, ?_, csrNumber_xcelreg_toNat k⟩
    unfold xcelWriteReg at h
    split at h
    · assumption
    · cases h
  · cases h

theorem csrRead_done_pc (h : csrRead csr s = .done (v, u)) : u.pc = s.pc := by
  rcases csrRead_done h with ⟨-, rest, -, rfl⟩ | ⟨k, -, -, -, rfl⟩ <;> rfl

theorem csrWrite_done_pc (h : csrWrite csr v s = .done u) : u.pc = s.pc := by
  rcases csrWrite_done h with ⟨-, -, rfl⟩ | ⟨k, -, -, rfl⟩ <;> rfl

/-! ### The branch (R95) -/

/-- An instruction whose whole effect is on the `pc` leaves registers, memory and the outside. -/
theorem exec_changes_only_pc {i : Instr} {a : Word} (h : exec i s = .next (s.setPc a)) :
    ∃ t, exec i s = .next t ∧ t.pc = a ∧ SameRegisters s t ∧ SameMemory s t ∧ SameOutside s t :=
  ⟨_, h, rfl, fun _ => rfl, fun _ => rfl, by simp [SameOutside]⟩

/-- A BNE on different registers that goes on has reached its target (R95). -/
theorem exec_bne_taken_pc {rs1 rs2 : Reg} {imm : BitVec 13} (hne : s.reg rs1 ≠ s.reg rs2)
    (h : exec (.bne rs1 rs2 imm) s = .next t) : t.pc = s.pc + imm.signExtend 32 := by
  cases ha : aligned (s.pc + imm.signExtend 32) with
  | true => rw [exec_bne_of_taken hne ha] at h; cases h; rfl
  | false => rw [exec_bne_of_misaligned hne ha] at h; cases h

/-! ### Sequential flow (R96) -/

/-- An instruction that goes on without a stall advances the `pc` by 4, or is a taken BNE. -/
theorem exec_pc_of_not_stalls {i : Instr} (hi : ¬ Stalls i s) (h : exec i s = .next t) :
    t.pc = s.pc + 4#32 ∨
      ∃ rs1 rs2 imm, i = .bne rs1 rs2 imm ∧ s.reg rs1 ≠ s.reg rs2 ∧ t.pc = s.pc + imm.signExtend 32 := by
  cases i with
  | csrr rd csr =>
    cases hr : csrRead csr s with
    | done a =>
      rw [exec_csrr_of_done hr] at h; cases h
      rw [State.setPc_pc, csrRead_done_pc hr]
      exact .inl rfl
    | stalled => exact absurd (stalls_of_csrRead hr rd) hi
    | faulted f => rw [exec_csrr_of_faulted hr] at h; cases h
  | csrw csr rs1 =>
    cases hw : csrWrite csr (s.reg rs1) s with
    | done u =>
      rw [exec_csrw_of_done hw] at h; cases h
      rw [State.setPc_pc, csrWrite_done_pc hw]
      exact .inl rfl
    | stalled => exact absurd (stalls_of_csrWrite hw rs1) hi
    | faulted f => rw [exec_csrw_of_faulted hw] at h; cases h
  | add | and | sll | srl | addi => cases h; exact .inl rfl
  | lw => obtain ⟨v, rfl⟩ := exec_lw_next h; exact .inl rfl
  | sw => obtain ⟨m, rfl⟩ := exec_sw_next h; exact .inl rfl
  | bne rs1 rs2 imm =>
    by_cases he : s.reg rs1 = s.reg rs2
    · rw [exec_bne_of_eq he] at h; cases h; exact .inl rfl
    · exact .inr ⟨rs1, rs2, imm, rfl, he, exec_bne_taken_pc he h⟩

end Sys2Proof.Machine
end

section
/-! The statements on control transfer (spec/43_branch.md). -/

namespace Sys2Proof.Machine

/-- Settles O28: the two cases that go on change the `pc` only, and the target is examined in the taken one. -/
theorem branchNotEqualRule : Obligations.BranchNotEqualRule := by
  refine fun s rs1 rs2 imm => ⟨fun he => exec_changes_only_pc (exec_bne_of_eq he imm), fun hne ha => ?_,
    fun hne ha => ?_⟩
  · exact exec_changes_only_pc (exec_bne_of_taken hne ((aligned_iff _).2 ha))
  · exact exec_bne_of_misaligned hne (Bool.eq_false_of_not_eq_true (mt (aligned_iff _).1 ha))

/-- Settles O29: a stall is the same state, what goes on without one advances or is a taken BNE, and recording a
fault changes the status only. -/
theorem sequentialFlow : Obligations.SequentialFlow := by
  refine ⟨fun i s t h => ?_, fun s rs1 rs2 imm he => ⟨_, exec_bne_of_eq he imm, rfl⟩, fun s f h => ?_⟩
  · by_cases hstall : Stalls i s
    · cases (exec_of_stalls hstall).symm.trans h
      exact .inl ⟨hstall, rfl⟩
    · exact .inr ((exec_pc_of_not_stalls hstall h).imp_left fun hpc => ⟨hstall, hpc⟩)
  · rw [State.afterStep_of_fault h, State.setStatus_pc]

end Sys2Proof.Machine
end

section
/-! The part of the machine that no manager and no accelerator reaches (R6, R102), and which faults an access, an
instruction and a fetch can end in, with their exact conditions (spec/60_exceptions.md R100, R103). -/

namespace Sys2Proof.Machine

variable {s t u : State} {f : Fault} {csr : CsrNumber}

/-! ### Accelerator accesses that are done (R72, R73, R113) -/

theorem csrRead_xcelreg_of_ready {k : XcelReg} (hcsr : csr.toNat = 0x7E0 + k.val) (hk : k ∉ s.xcelReadStalls) :
    csrRead csr s = .done (Config.xcelRead s.clock s.xcelHistory k, s.recordXcel (.read k)) := by
  simp [csrRead, csrOfNumber_of_toNat_eq hcsr, xcelReadReg, hk]

theorem csrWrite_xcelreg_of_ready {k : XcelReg} (hcsr : csr.toNat = 0x7E0 + k.val) (hk : k ∉ s.xcelWriteStalls)
    (w : Word) : csrWrite csr w s = .done (s.recordXcel (.write k w)) := by
  simp [csrWrite, csrOfNumber_of_toNat_eq hcsr, xcelWriteReg, hk]

/-! ### Two machines with the same processor (R6, R102) -/

/-- The registers, the `pc`, memory and the fault record are the same; the FIFOs, the accelerator and the
environment may be anything. -/
structure SameProcessor (s u : State) : Prop where
  regs : s.regs = u.regs
  pc : s.pc = u.pc
  mem : s.mem = u.mem
  status : s.status = u.status

/-- Two answers agree: the same fault, or next states with the same processor. -/
inductive SameAnswer : Result → Result → Prop where
  | next {t v : State} (h : SameProcessor t v) : SameAnswer (.next t) (.next v)
  | fault (f : Fault) : SameAnswer (.fault f) (.fault f)

theorem SameAnswer.exists_next {b : Result} (h : SameAnswer (.next t) b) : ∃ v, b = .next v ∧ SameProcessor t v := by
  cases h with
  | next h => exact ⟨_, rfl, h⟩

theorem SameAnswer.eq_fault {b : Result} (h : SameAnswer (.fault f) b) : b = .fault f := by
  cases h with
  | fault => rfl

section
variable (h : SameProcessor s u)
include h

theorem SameProcessor.reg (r : Reg) : s.reg r = u.reg r := congrArg (readCell · r) h.regs

theorem SameProcessor.setReg (rd : Reg) (w : Word) : SameProcessor (s.setReg rd w) (u.setReg rd w) :=
  ⟨congrArg (writeCell · rd w) h.regs, h.pc, h.mem, h.status⟩

theorem SameProcessor.setPc (a : Word) : SameProcessor (s.setPc a) (u.setPc a) := ⟨h.regs, rfl, h.mem, h.status⟩

theorem SameProcessor.setMem (m : Memory) : SameProcessor (s.setMem m) (u.setMem m) := ⟨h.regs, h.pc, rfl, h.status⟩

/-- The turn of either environment is out of the processor's sight (R40). -/
theorem SameProcessor.environmentTurn : SameProcessor s.environmentTurn u.environmentTurn := by
  constructor <;> simp only [State.environmentTurn_regs, State.environmentTurn_pc, State.environmentTurn_mem,
    State.environmentTurn_status, h.regs, h.pc, h.mem, h.status]

theorem SameProcessor.fetch_eq : fetch s = fetch u := by
  simp only [fetch, h.pc, h.mem]

/-- An instruction that reaches no CSR looks at the processor only. -/
theorem SameProcessor.exec_sameAnswer {i : Instr} (hi : usesCsr i = false) : SameAnswer (exec i s) (exec i u) := by
  cases i with
  | csrr | csrw => cases hi
  | add | and | sll | srl | addi =>
    simp only [exec_add, exec_and, exec_sll, exec_srl, exec_addi, h.reg, h.pc]
    exact .next ((h.setReg _ _).setPc _)
  | lw rd rs1 imm =>
    cases ha : accessFault (u.reg rs1 + imm.signExtend 32) with
    | none =>
      rw [exec_lw_of_ok ha, exec_lw_of_ok (by rwa [h.reg]), h.reg, h.mem, h.pc]
      exact .next ((h.setReg _ _).setPc _)
    | some f =>
      rw [exec_lw_of_fault ha, exec_lw_of_fault (by rwa [h.reg])]
      exact .fault f
  | sw rs2 rs1 imm =>
    cases ha : accessFault (u.reg rs1 + imm.signExtend 32) with
    | none =>
      rw [exec_sw_of_ok ha, exec_sw_of_ok (by rwa [h.reg]), h.reg, h.reg, h.mem, h.pc]
      exact .next ((h.setMem _).setPc _)
    | some f =>
      rw [exec_sw_of_fault ha, exec_sw_of_fault (by rwa [h.reg])]
      exact .fault f
  | bne rs1 rs2 imm =>
    by_cases he : u.reg rs1 = u.reg rs2
    · rw [exec_bne_of_eq he, exec_bne_of_eq (by rwa [h.reg, h.reg]), h.pc]
      exact .next (h.setPc _)
    · have he' : s.reg rs1 ≠ s.reg rs2 := by rwa [h.reg, h.reg]
      cases ha : aligned (u.pc + imm.signExtend 32) with
      | true =>
        rw [exec_bne_of_taken he ha, exec_bne_of_taken he' (by rwa [h.pc]), h.pc]
        exact .next (h.setPc _)
      | false =>
        rw [exec_bne_of_misaligned he ha, exec_bne_of_misaligned he' (by rwa [h.pc]), h.pc]
        exact .fault _

/-- A step that executes no CSR instruction looks at the processor only. -/
theorem SameProcessor.step_sameAnswer (hi : ∀ i, fetch s = .ok i → usesCsr i = false) :
    SameAnswer (step s) (step u) := by
  cases hs : s.status with
  | faulted f =>
    rw [step_of_faulted hs, step_of_faulted (h.status ▸ hs)]
    exact .fault f
  | running =>
    have hu : u.status = .running := h.status ▸ hs
    cases hf : fetch s with
    | error f =>
      rw [step_of_fetch_error hs hf, step_of_fetch_error hu (h.fetch_eq ▸ hf)]
      exact .fault f
    | ok i =>
      have hexec := h.exec_sameAnswer (hi i hf)
      obtain ⟨t, ht⟩ | ⟨f, ht⟩ := exec_next_or_fault i s
      · obtain ⟨v, hv, htv⟩ := (ht ▸ hexec).exists_next
        rw [step_of_exec_next hs hf ht, step_of_exec_next hu (h.fetch_eq ▸ hf) hv]
        exact .next htv.environmentTurn
      · have hv := (ht ▸ hexec).eq_fault
        rw [step_of_exec_fault hs hf ht, step_of_exec_fault hu (h.fetch_eq ▸ hf) hv]
        exact .fault f

end

/-! ### The faults of an access (R72, R73, R92) -/

theorem accessFault_eq_some_iff (a : Word) : accessFault a = some f ↔
    (a.toNat % 4 ≠ 0 ∧ f = .misalignedAccess a) ∨
    (a.toNat % 4 = 0 ∧ 0xFFFFF < a.toNat ∧ f = .addressOutOfRange a) := by
  obtain ⟨h4, he⟩ | ⟨h4, hr, he⟩ | ⟨h4, hr, he⟩ := accessFault_cases a
  · simp [he, h4, eq_comm]
  · simp [he, h4, hr, eq_comm]
  · simp [he, h4, hr.not_gt]

theorem csrRead_eq_faulted_iff : csrRead csr s = .faulted f ↔
    (¬ isCsrNumber csr ∧ f = .unsupportedCSR csr) ∨
    (csr = 0x7C0#12 ∧ f = .undefinedCSRAccess 0x7C0#12 .read) := by
  refine ⟨fun h => ?_, ?_⟩
  · unfold csrRead at h
    split at h
    · unfold dequeueM2p at h; split at h <;> cases h
    next hc =>
      obtain rfl := csrNumber_of_csrOfNumber hc
      cases h; exact .inr ⟨rfl, rfl⟩
    · unfold xcelReadReg at h; split at h <;> cases h
    next hc => cases h; exact .inl ⟨(csrOfNumber_eq_none_iff csr).1 hc, rfl⟩
  · rintro (⟨hn, rfl⟩ | ⟨rfl, rfl⟩)
    · exact csrRead_of_not_isCsrNumber hn s
    · exact csrRead_proc2mngr s

theorem csrWrite_eq_faulted_iff {w : Word} : csrWrite csr w s = .faulted f ↔
    (¬ isCsrNumber csr ∧ f = .unsupportedCSR csr) ∨
    (csr = 0xFC0#12 ∧ f = .undefinedCSRAccess 0xFC0#12 .write) := by
  refine ⟨fun h => ?_, ?_⟩
  · unfold csrWrite at h
    split at h
    · unfold enqueueP2m at h; split at h <;> cases h
    next hc =>
      obtain rfl := csrNumber_of_csrOfNumber hc
      cases h; exact .inr ⟨rfl, rfl⟩
    · unfold xcelWriteReg at h; split at h <;> cases h
    next hc => cases h; exact .inl ⟨(csrOfNumber_eq_none_iff csr).1 hc, rfl⟩
  · rintro (⟨hn, rfl⟩ | ⟨rfl, rfl⟩)
    · exact csrWrite_of_not_isCsrNumber hn w s
    · exact csrWrite_mngr2proc w s

/-! ### The faults of an instruction (R100, R101) -/

theorem exec_lw_eq_fault_iff {rd rs1 : Reg} {imm : BitVec 12} :
    exec (.lw rd rs1 imm) s = .fault f ↔ accessFault (s.reg rs1 + imm.signExtend 32) = some f := by
  cases ha : accessFault (s.reg rs1 + imm.signExtend 32) with
  | none => simp [exec_lw_of_ok ha]
  | some g => simp [exec_lw_of_fault ha]

theorem exec_sw_eq_fault_iff {rs2 rs1 : Reg} {imm : BitVec 12} :
    exec (.sw rs2 rs1 imm) s = .fault f ↔ accessFault (s.reg rs1 + imm.signExtend 32) = some f := by
  cases ha : accessFault (s.reg rs1 + imm.signExtend 32) with
  | none => simp [exec_sw_of_ok ha]
  | some g => simp [exec_sw_of_fault ha]

theorem exec_bne_eq_fault_iff {rs1 rs2 : Reg} {imm : BitVec 13} :
    exec (.bne rs1 rs2 imm) s = .fault f ↔
      s.reg rs1 ≠ s.reg rs2 ∧ (s.pc + imm.signExtend 32).toNat % 4 ≠ 0 ∧
        f = .misalignedBranchTarget s.pc (s.pc + imm.signExtend 32) := by
  by_cases he : s.reg rs1 = s.reg rs2
  · simp [exec_bne_of_eq he, he]
  · rw [ne_eq (_ % 4), ← aligned_iff]
    cases ha : aligned (s.pc + imm.signExtend 32) with
    | true => simp [exec_bne_of_taken he ha]
    | false => simp [exec_bne_of_misaligned he ha, he, eq_comm]

theorem exec_csrr_eq_fault_iff {rd : Reg} : exec (.csrr rd csr) s = .fault f ↔ csrRead csr s = .faulted f := by
  cases hr : csrRead csr s with
  | done a => simp [exec_csrr_of_done hr]
  | stalled => simp [exec_csrr_of_stalled hr]
  | faulted g => simp [exec_csrr_of_faulted hr]

theorem exec_csrw_eq_fault_iff {rs1 : Reg} :
    exec (.csrw csr rs1) s = .fault f ↔ csrWrite csr (s.reg rs1) s = .faulted f := by
  cases hw : csrWrite csr (s.reg rs1) s with
  | done u => simp [exec_csrw_of_done hw]
  | stalled => simp [exec_csrw_of_stalled hw]
  | faulted g => simp [exec_csrw_of_faulted hw]

/-! ### The faults of a fetch, in the order of R7 -/

theorem fetch_of_misaligned (h4 : s.pc.toNat % 4 ≠ 0) : fetch s = .error (.misalignedFetch s.pc) := by
  have ha : aligned s.pc = false := Bool.eq_false_of_not_eq_true (mt (aligned_iff _).1 h4)
  simp [fetch, ha]

theorem fetch_of_outOfRange (h4 : s.pc.toNat % 4 = 0) (hr : 0xFFFFF < s.pc.toNat) :
    fetch s = .error (.fetchOutOfRange s.pc) := by
  have ha : aligned s.pc = true := (aligned_iff _).2 h4
  have hr : inRange s.pc = false := Bool.eq_false_of_not_eq_true (mt (inRange_iff _).1 hr.not_ge)
  simp [fetch, ha, hr]

theorem fetch_of_decodeWord_error (h : s.canFetch) {e : DecodeReject}
    (hd : decodeWord (Memory.readWord s.mem s.pc.toNat) = .error e) :
    fetch s = .error (.illegalInstruction s.pc (Memory.readWord s.mem s.pc.toNat)) := by
  rw [fetch_of_canFetch h, hd]

theorem step_eq_fault_iff_of_fetch {i : Instr} (hs : s.status = .running) (hf : fetch s = .ok i) :
    step s = .fault f ↔ exec i s = .fault f := by
  obtain ⟨t, he⟩ | ⟨g, he⟩ := exec_next_or_fault i s
  · rw [step_of_exec_next hs hf he, he]; simp
  · rw [step_of_exec_fault hs hf he, he]

end Sys2Proof.Machine
end

section
/-! The statements on faults and on what lies outside the processor (spec/60_exceptions.md). -/

namespace Sys2Proof.Machine

/-- Settles O46: the fetch, every instruction but the two, and the environment's turn keep the processors the
same. -/
theorem environmentIsSeenOnlyThroughCsrs : Obligations.EnvironmentIsSeenOnlyThroughCsrs := by
  intro s u hregs hpc hmem hstatus hi
  have h := SameProcessor.step_sameAnswer ⟨hregs, hpc, hmem, hstatus⟩ hi
  refine ⟨fun t ht => ?_, fun f hf => (hf ▸ h).eq_fault⟩
  obtain ⟨v, hv, htv⟩ := (ht ▸ h).exists_next
  exact ⟨v, hv, htv.regs, htv.pc, htv.mem, htv.status⟩

/-- Settles O32: the access leaves the state with itself recorded, and the instruction adds `rd` and the `pc`. -/
theorem acceleratorAccessCompletes : Obligations.AcceleratorAccessCompletes := fun s r _ _ hcsr =>
  ⟨fun hk => exec_csrr_completes (csrRead_xcelreg_of_ready hcsr hk) r,
    fun hk => exec_csrw_completes (csrWrite_xcelreg_of_ready hcsr hk (s.reg r))⟩

/-- Settles O41: the checks of R7 in their order, and where they pass, the faults of the one instruction that the
word at `pc` stands for. -/
theorem faultsAreExactlyThese : Obligations.FaultsAreExactlyThese := by
  intro s f hs
  by_cases h4 : s.pc.toNat % 4 = 0
  case neg =>
    rw [step_of_fetch_error hs (fetch_of_misaligned h4)]
    simp [h4, eq_comm]
  by_cases hr : s.pc.toNat ≤ 0xFFFFF
  case neg =>
    rw [step_of_fetch_error hs (fetch_of_outOfRange h4 (not_le.1 hr))]
    simp [h4, hr, not_le.1 hr, eq_comm]
  have hc : s.canFetch := ⟨hs, (aligned_iff _).2 h4, (inRange_iff _).2 hr⟩
  cases hd : decodeWord (Memory.readWord s.mem s.pc.toNat) with
  | error e =>
    rw [step_of_fetch_error hs (fetch_of_decodeWord_error hc hd)]
    simp [h4, hr, hr.not_gt, hd, eq_comm]
  | ok i =>
    rw [step_eq_fault_iff_of_fetch hs (fetch_of_decodeWord hc hd)]
    cases i with
    | add | and | sll | srl | addi => simp [exec_add, exec_and, exec_sll, exec_srl, exec_addi, h4, hr.not_gt, hd]
    | lw => simp [exec_lw_eq_fault_iff, accessFault_eq_some_iff, h4, hr, hr.not_gt, hd]
    | sw => simp [exec_sw_eq_fault_iff, accessFault_eq_some_iff, h4, hr, hr.not_gt, hd]
    | bne => simp [exec_bne_eq_fault_iff, h4, hr, hr.not_gt, hd]
    | csrr => simp [exec_csrr_eq_fault_iff, csrRead_eq_faulted_iff, h4, hr, hr.not_gt, hd]
    | csrw => simp [exec_csrw_eq_fault_iff, csrWrite_eq_faulted_iff, h4, hr, hr.not_gt, hd]

/-- Settles O19: each of the five writes `rd` and advances the `pc`, whatever its operands hold. -/
theorem arithmeticCompletesForEveryOperand : Obligations.ArithmeticCompletesForEveryOperand :=
  fun s rd rs1 rs2 imm =>
    ⟨⟨_, exec_add s rd rs1 rs2⟩, ⟨_, exec_and s rd rs1 rs2⟩, ⟨_, exec_sll s rd rs1 rs2⟩,
      ⟨_, exec_srl s rd rs1 rs2⟩, ⟨_, exec_addi s rd rs1 imm⟩⟩

end Sys2Proof.Machine
end

section
/-! How a run comes to its end: at once, or by one step from a state where its condition does not hold (R127). -/

namespace Sys2Proof.Machine

variable {e : EndOfRun} {s t u : State}

theorem runVerdict_eq_ended_iff :
    runVerdict e s = some (.ended t) ↔ s.status = .running ∧ e.holds s = true ∧ s = t := by
  obtain ⟨⟨f, hs⟩, hv⟩ | ⟨hs, he, hv⟩ | ⟨hs, he, hv⟩ := runVerdict_cases e s
  · simp [hv, hs]
  · simp [hv, hs, he]
  · simp [hv, hs, he]

theorem runVerdict_eq_none_iff : runVerdict e s = none ↔ s.status = .running ∧ e.holds s = false := by
  obtain ⟨⟨f, hs⟩, hv⟩ | ⟨hs, he, hv⟩ | ⟨hs, he, hv⟩ := runVerdict_cases e s
  · simp [hv, hs]
  · simp [hv, hs, he]
  · simp [hv, hs, he]

/-- Everything a run that ends can have done first. -/
theorem runUntil_ended_cases {n : Nat} (h : runUntil e n s = .ended t) :
    (s.status = .running ∧ e.holds s = true ∧ s = t) ∨
    ∃ m u, n = m + 1 ∧ e.holds s = false ∧ step s = .next u ∧ runUntil e m u = .ended t := by
  cases hv : runVerdict e s with
  | some o =>
    obtain rfl := (runUntil_of_verdict hv n).symm.trans h
    exact .inl (runVerdict_eq_ended_iff.1 hv)
  | none =>
    cases n with
    | zero => cases (runUntil_zero_of_none hv).symm.trans h
    | succ m =>
      obtain ⟨-, he⟩ := runVerdict_eq_none_iff.1 hv
      rw [runUntil_succ_of_none hv] at h
      cases hs : step s with
      | next u => rw [hs] at h; exact .inr ⟨m, u, rfl, he, rfl, h⟩
      | fault | refused => rw [hs] at h; cases h

/-- The induction along a run that ends, back from the state it ends in. -/
theorem runUntil_ended_induction {motive : (n : Nat) → (s : State) → runUntil e n s = .ended t → Prop}
    (here : ∀ n h, t.status = .running → e.holds t = true → motive n t h)
    (later : ∀ n s u h hu, e.holds s = false → step s = .next u → motive n u hu → motive (n + 1) s h)
    (n : Nat) (s : State) (h : runUntil e n s = .ended t) : motive n s h := by
  induction n generalizing s with
  | zero =>
    obtain ⟨hs, he, rfl⟩ | ⟨m, u, hn, -⟩ := runUntil_ended_cases h
    · exact here 0 h hs he
    · cases hn
  | succ n ih =>
    obtain ⟨hs, he, rfl⟩ | ⟨m, u, hn, he, hstep, hu⟩ := runUntil_ended_cases h
    · exact here (n + 1) h hs he
    · cases hn
      exact later n s u h hu he hstep (ih u hu)

/-- The state a run ends in is not Faulted (R8) and meets the condition. -/
theorem running_and_holds_of_runUntil_ended {n : Nat} (h : runUntil e n s = .ended t) :
    t.status = .running ∧ e.holds t = true := by
  induction n, s, h using runUntil_ended_induction with
  | here n h hs he => exact ⟨hs, he⟩
  | later n s u h hu he hstep ih => exact ih

theorem steps_succ_of_next (h : step s = .next u) (k : Nat) : steps (k + 1) s = steps k u := by
  rw [steps, h]

/-- The end of a run is where its condition first holds along the steps. -/
theorem exists_steps_of_runUntil_ended {n : Nat} (h : runUntil e n s = .ended t) :
    ∃ k ≤ n, steps k s = .next t ∧ ∀ j < k, ∀ u, steps j s = .next u → e.holds u = false := by
  induction n, s, h using runUntil_ended_induction with
  | here n h hs he => exact ⟨0, Nat.zero_le n, rfl, fun j hj => absurd hj j.not_lt_zero⟩
  | later n s v h hv he hstep ih =>
    obtain ⟨k, hk, ht, hbefore⟩ := ih
    refine ⟨k + 1, Nat.succ_le_succ hk, (steps_succ_of_next hstep k).trans ht, fun j hj u hu => ?_⟩
    cases j with
    | zero => cases hu; exact he
    | succ j => exact hbefore j (Nat.lt_of_succ_lt_succ hj) u ((steps_succ_of_next hstep j).symm.trans hu)

/-! ### The boot state at the reset vector (R25, R120) -/

theorem State.boot_canFetch (p : BootParams) : (State.boot p).canFetch :=
  have hvec : aligned Config.resetVector = true ∧ inRange Config.resetVector = true := by decide
  ⟨rfl, hvec⟩

end Sys2Proof.Machine
end

section
/-! The statements on reset and on the end of a run (spec/70_reset_and_hazards.md). -/

namespace Sys2Proof.Machine

/-- Settles O49, by induction on the number of steps a run is given, from the two ways it can come to its end. -/
theorem runEndsWhereTheConditionFirstHolds : Obligations.RunEndsWhereTheConditionFirstHolds := by
  intro e n s t h
  obtain ⟨hstatus, hholds⟩ := running_and_holds_of_runUntil_ended h
  exact ⟨hstatus, hholds, fun m hnm => runUntil_of_le h (by simp) hnm, exists_steps_of_runUntil_ended h⟩

/-- Settles O47: the reset vector admits a fetch, and the word fetched there is its four bytes, for every image. -/
theorem resetStartsAtTheResetVector : Obligations.ResetStartsAtTheResetVector := by
  refine ⟨rfl, fun p => ⟨rfl, rfl, rfl, fun i hd => ?_⟩⟩
  rw [← Memory.readWord_eq_append (State.boot p).mem 0x200] at hd
  exact fetch_of_decodeWord (State.boot_canFetch p) hd

end Sys2Proof.Machine
end
